-- ==== Sys2Proof/Word.lean ====
section
/-! DEFINITION. The machine's bit-vector types (spec/00_scope.md R9, R10): every value of the CHIP-8
core is unsigned, bit 0 is the least significant bit. -/

namespace Sys2Proof

/-- `u8`: a memory byte, a general register, a timer. -/
abbrev Byte := BitVec 8

/-- `u16`: I, PC, an instruction word. -/
abbrev Word := BitVec 16

/-- The index of a general register, fields X and Y; `0xF` is VF (30_encoding.md R82). -/
abbrev Reg := BitVec 4

/-- The 4-bit field N: the sprite height of DXYN (30_encoding.md R80). -/
abbrev Nibble := BitVec 4

/-- `u12`: the address field NNN (30_encoding.md R80). -/
abbrev Addr12 := BitVec 12

end Sys2Proof
end

