-- ==== Sys2Proof/Config.lean ====
section
/-! DEFINITION. The constants and parameters of the core (spec/00_scope.md R8) and the one free value,
the random byte (42_alu.md R160). -/

namespace Sys2Proof.Config

/-- `MEM_SIZE` (00 R8). -/
@[simp] abbrev memSize : Nat := 4096

/-- `PROG_BASE`: where the ROM is loaded and where execution starts (00 R8, 20 R53). -/
@[simp] abbrev progBase : Nat := 0x200

/-- `FONT_BASE` (00 R8, 90_conflicts.md C1). -/
@[simp] abbrev fontBase : Nat := 0x050

/-- The length of `FONT_DATA`: 16 glyphs of 5 bytes (10 R38). -/
@[simp] abbrev fontSize : Nat := 80

/-- `STACK_DEPTH` (00 R8, 10 R28). -/
@[simp] abbrev stackDepth : Nat := 16

/-- The longest ROM: `4096 - 0x200` bytes (70 R263). -/
@[simp] abbrev maxRom : Nat := 3584

/-- The default glyphs of 10_state.md R38, digits 0 to F, one list a glyph.
UNVERIFIED, unsafe: the spec supplies these bytes from general knowledge (log entry 7). -/
def defaultGlyphs : List (List Byte) :=
  [[0xF0, 0x90, 0x90, 0x90, 0xF0],
   [0x20, 0x60, 0x20, 0x20, 0x70],
   [0xF0, 0x10, 0xF0, 0x80, 0xF0],
   [0xF0, 0x10, 0xF0, 0x10, 0xF0],
   [0x90, 0x90, 0xF0, 0x10, 0x10],
   [0xF0, 0x80, 0xF0, 0x10, 0xF0],
   [0xF0, 0x80, 0xF0, 0x90, 0xF0],
   [0xF0, 0x10, 0x20, 0x40, 0x40]] ++
  [[0xF0, 0x90, 0xF0, 0x90, 0xF0],
   [0xF0, 0x90, 0xF0, 0x10, 0xF0],
   [0xF0, 0x90, 0xF0, 0x90, 0x90],
   [0xE0, 0x90, 0xE0, 0x90, 0xE0],
   [0xF0, 0x80, 0x80, 0x80, 0xF0],
   [0xE0, 0x90, 0x90, 0x90, 0xE0],
   [0xF0, 0x80, 0xF0, 0x80, 0xF0],
   [0xF0, 0x80, 0xF0, 0x80, 0x80]]

/-- The default `FONT_DATA` (10 R38). -/
def defaultFont : Vector Byte fontSize := ⟨⟨defaultGlyphs.flatten⟩, by decide⟩

/-- The OPEN parameters of the core (00 R8, 92_eei_decisions.md D2, D5): arguments of the model, fixed
for one machine. A state carries them, so a statement about every state is about every value. -/
structure Params where
  /-- `HALT_WORD`: the word that decodes as STOP, or none (30_encoding.md R87). -/
  haltWord : Option Word
  /-- `FONT_DATA` (10_state.md R38). -/
  font : Vector Byte fontSize
deriving DecidableEq, Repr

/-- The defaults of 00_scope.md R8: no halt word, the classic font. -/
def Params.default : Params := { haltWord := none, font := defaultFont }

/-- The byte the environment's random source answers to draw number `n` (42_alu.md R160: "every one of
the 256 values is a possible run"). A FREE VALUE: it has no body, nothing can be proved of its values
(log entry 5, safe). -/
opaque randomByte : Nat → Byte

end Sys2Proof.Config
end

