-- ==== Sys2Proof/Syntax.lean ====
section
/-! DEFINITION. The instructions: one constructor per row of spec/opcode_table.json (30_encoding.md R84),
operands as the fields X, Y, N, NN, NNN of R80. -/

namespace Sys2Proof

/-- An instruction of the CHIP-8 base set. SHR and SHL keep their ignored Y field (30 R83: it is
"decoded but not used"), so that no bit of a word is lost (log entry 19). -/
inductive Instr where
  | clear
  | ret
  | jp (nnn : Addr12)
  | call (nnn : Addr12)
  | seImm (x : Reg) (nn : Byte)
  | sneImm (x : Reg) (nn : Byte)
  | seReg (x y : Reg)
  | ldImm (x : Reg) (nn : Byte)
  | addImm (x : Reg) (nn : Byte)
  | ldReg (x y : Reg)
  | or (x y : Reg)
  | and (x y : Reg)
  | xor (x y : Reg)
  | add (x y : Reg)
  | sub (x y : Reg)
  | shr (x y : Reg)
  | subn (x y : Reg)
  | shl (x y : Reg)
  | sneReg (x y : Reg)
  | ldI (nnn : Addr12)
  | jpV0 (nnn : Addr12)
  | rand (x : Reg) (nn : Byte)
  | draw (x y : Reg) (n : Nibble)
  | skipIfPressed (x : Reg)
  | skipIfNotPressed (x : Reg)
  | ldVxDt (x : Reg)
  | waitKey (x : Reg)
  | ldDtVx (x : Reg)
  | ldStVx (x : Reg)
  | addI (x : Reg)
  | ldF (x : Reg)
  | bcd (x : Reg)
  | regDump (x : Reg)
  | regLoad (x : Reg)
  | stop
deriving DecidableEq, Repr

/-- The row's mnemonic in spec/opcode_table.json. -/
def Instr.mnemonic : Instr → String
  | .clear => "CLEAR"
  | .ret => "RET"
  | .jp _ => "JP"
  | .call _ => "CALL"
  | .seImm _ _ => "SE_IMM"
  | .sneImm _ _ => "SNE_IMM"
  | .seReg _ _ => "SE_REG"
  | .ldImm _ _ => "LD_IMM"
  | .addImm _ _ => "ADD_IMM"
  | .ldReg _ _ => "LD_REG"
  | .or _ _ => "OR"
  | .and _ _ => "AND"
  | .xor _ _ => "XOR"
  | .add _ _ => "ADD"
  | .sub _ _ => "SUB"
  | .shr _ _ => "SHR"
  | .subn _ _ => "SUBN"
  | .shl _ _ => "SHL"
  | .sneReg _ _ => "SNE_REG"
  | .ldI _ => "LD_I"
  | .jpV0 _ => "JP_V0"
  | .rand _ _ => "RAND"
  | .draw _ _ _ => "DRAW"
  | .skipIfPressed _ => "SKIP_IF_PRESSED"
  | .skipIfNotPressed _ => "SKIP_IF_NOT_PRESSED"
  | .ldVxDt _ => "LD_VX_DT"
  | .waitKey _ => "WAIT_KEY"
  | .ldDtVx _ => "LD_DT_VX"
  | .ldStVx _ => "LD_ST_VX"
  | .addI _ => "ADD_I"
  | .ldF _ => "LD_F"
  | .bcd _ => "BCD"
  | .regDump _ => "REG_DUMP"
  | .regLoad _ => "REG_LOAD"
  | .stop => "STOP"

end Sys2Proof
end

