-- ==== Sys2Proof/WellFormed.lean ====
section
/-! DEFINITION. What is well-formed: the parameters (30_encoding.md R87) and the instructions. The types
of Instr's operands already bound every field (30 R82), so the one check left is STOP's, which exists
only on a machine whose HALT_WORD is set (40_executor.md R108). -/

namespace Sys2Proof

/-- The illegal words, space by space, as the table of 30_encoding.md R85 lists them. -/
def illegalWord (w : Word) : Bool :=
  let n := w.toNat % 16
  let nn := w.toNat % 256
  match w.toNat / 4096 with
  | 0 => w != 0x00E0 && w != 0x00EE
  | 5 => n != 0
  | 8 => [8, 9, 0xA, 0xB, 0xC, 0xD, 0xF].contains n
  | 9 => n != 0
  | 14 => !([0x9E, 0xA1].contains nn)
  | 15 => !([0x07, 0x0A, 0x15, 0x18, 0x1E, 0x29, 0x33, 0x55, 0x65].contains nn)
  | _ => false

/-- `HALT_WORD` is none or one of the illegal words (30 R87). -/
def haltWordOk (h : Option Word) : Bool :=
  match h with
  | none => true
  | some w => illegalWord w

/-- The parameters a core may be built with (00 R8, 30 R87). -/
def Config.Params.wf (p : Config.Params) : Bool := haltWordOk p.haltWord

/-- An instruction that the machine with halt word `h` has. -/
def Instr.wf (h : Option Word) : Instr → Bool
  | .clear => true
  | .ret => true
  | .jp _ => true
  | .call _ => true
  | .seImm _ _ => true
  | .sneImm _ _ => true
  | .seReg _ _ => true
  | .ldImm _ _ => true
  | .addImm _ _ => true
  | .ldReg _ _ => true
  | .or _ _ => true
  | .and _ _ => true
  | .xor _ _ => true
  | .add _ _ => true
  | .sub _ _ => true
  | .shr _ _ => true
  | .subn _ _ => true
  | .shl _ _ => true
  | .sneReg _ _ => true
  | .ldI _ => true
  | .jpV0 _ => true
  | .rand _ _ => true
  | .draw _ _ _ => true
  | .skipIfPressed _ => true
  | .skipIfNotPressed _ => true
  | .ldVxDt _ => true
  | .waitKey _ => true
  | .ldDtVx _ => true
  | .ldStVx _ => true
  | .addI _ => true
  | .ldF _ => true
  | .bcd _ => true
  | .regDump _ => true
  | .regLoad _ => true
  | .stop => h.isSome && haltWordOk h

end Sys2Proof
end

