-- ==== Sys2Proof/Decode.lean ====
section
/-! DEFINITION. Decoding and encoding of the 16-bit words (spec/30_encoding.md). Decoding is a pure
function of the word and the parameter HALT_WORD (40_executor.md R103, 30 R87); it is total and rejects by
name. Bit patterns other than FX29 and 5XY0 are the spec's general knowledge (UNVERIFIED, unsafe, log
entry 8). -/

namespace Sys2Proof

/-! ### Fields (30 R80) -/

/-- Bits 15..12, the class. -/
def fieldClass (w : Word) : BitVec 4 := w.extractLsb' 12 4

/-- Bits 11..8, X. -/
def fieldX (w : Word) : Reg := w.extractLsb' 8 4

/-- Bits 7..4, Y. -/
def fieldY (w : Word) : Reg := w.extractLsb' 4 4

/-- Bits 3..0, N. -/
def fieldN (w : Word) : Nibble := w.extractLsb' 0 4

/-- Bits 7..0, NN. -/
def fieldNN (w : Word) : Byte := w.extractLsb' 0 8

/-- Bits 11..0, NNN. -/
def fieldNNN (w : Word) : Addr12 := w.extractLsb' 0 12

/-- The instruction word of two consecutive bytes, big-endian (20_memory.md R52). -/
def wordOfBytes (hi lo : Byte) : Word := hi ++ lo

/-- The byte at the lower address of a word: its bits 15..8 (20 R52). -/
def wordHi (w : Word) : Byte := w.extractLsb' 8 8

/-- The byte at the higher address of a word: its bits 7..0 (20 R52). -/
def wordLo (w : Word) : Byte := w.extractLsb' 0 8

/-! ### Decoding (30 R84) -/

/-- Why bytes are no instruction. -/
inductive DecodeError where
  /-- The word matches no row of the opcode map (30 R85). -/
  | unknown (w : Word)
  /-- Fewer than the two bytes of an instruction (30 R89). -/
  | truncated
deriving DecidableEq, Repr

/-- Class 0: only the two exact words 00E0 and 00EE (30 R84, R86). -/
def decodeClass0 (w : Word) : Option Instr :=
  match fieldNNN w with
  | 0x0E0#12 => some .clear
  | 0x0EE#12 => some .ret
  | _ => none

/-- Class 8, by N (30 R84). -/
def decodeClass8 (w : Word) : Option Instr :=
  match fieldN w with
  | 0x0#4 => some (.ldReg (fieldX w) (fieldY w))
  | 0x1#4 => some (.or (fieldX w) (fieldY w))
  | 0x2#4 => some (.and (fieldX w) (fieldY w))
  | 0x3#4 => some (.xor (fieldX w) (fieldY w))
  | 0x4#4 => some (.add (fieldX w) (fieldY w))
  | 0x5#4 => some (.sub (fieldX w) (fieldY w))
  | 0x6#4 => some (.shr (fieldX w) (fieldY w))
  | 0x7#4 => some (.subn (fieldX w) (fieldY w))
  | 0xE#4 => some (.shl (fieldX w) (fieldY w))
  | _ => none

/-- Class E, by NN (30 R84). -/
def decodeClassE (w : Word) : Option Instr :=
  match fieldNN w with
  | 0x9E#8 => some (.skipIfPressed (fieldX w))
  | 0xA1#8 => some (.skipIfNotPressed (fieldX w))
  | _ => none

/-- Class F, by NN (30 R84). -/
def decodeClassF (w : Word) : Option Instr :=
  match fieldNN w with
  | 0x07#8 => some (.ldVxDt (fieldX w))
  | 0x0A#8 => some (.waitKey (fieldX w))
  | 0x15#8 => some (.ldDtVx (fieldX w))
  | 0x18#8 => some (.ldStVx (fieldX w))
  | 0x1E#8 => some (.addI (fieldX w))
  | 0x29#8 => some (.ldF (fieldX w))
  | 0x33#8 => some (.bcd (fieldX w))
  | 0x55#8 => some (.regDump (fieldX w))
  | 0x65#8 => some (.regLoad (fieldX w))
  | _ => none

/-- The rows with a fixed pattern: every row of 30 R84 but STOP's. -/
def decodeRow (w : Word) : Option Instr :=
  match fieldClass w with
  | 0x0#4 => decodeClass0 w
  | 0x1#4 => some (.jp (fieldNNN w))
  | 0x2#4 => some (.call (fieldNNN w))
  | 0x3#4 => some (.seImm (fieldX w) (fieldNN w))
  | 0x4#4 => some (.sneImm (fieldX w) (fieldNN w))
  | 0x5#4 => if fieldN w = 0 then some (.seReg (fieldX w) (fieldY w)) else none
  | 0x6#4 => some (.ldImm (fieldX w) (fieldNN w))
  | 0x7#4 => some (.addImm (fieldX w) (fieldNN w))
  | 0x8#4 => decodeClass8 w
  | 0x9#4 => if fieldN w = 0 then some (.sneReg (fieldX w) (fieldY w)) else none
  | 0xA#4 => some (.ldI (fieldNNN w))
  | 0xB#4 => some (.jpV0 (fieldNNN w))
  | 0xC#4 => some (.rand (fieldX w) (fieldNN w))
  | 0xD#4 => some (.draw (fieldX w) (fieldY w) (fieldN w))
  | 0xE#4 => decodeClassE w
  | 0xF#4 => decodeClassF w
  | _ => none

/-- `Decode(w)` of 30 R84: one row, or STOP for the halt word (30 R87), or unknown. The fixed rows come
first, so a halt word that is no illegal word never gives a word a second meaning (log entry 6). -/
def decode (haltWord : Option Word) (w : Word) : Except DecodeError Instr :=
  match decodeRow w with
  | some i => .ok i
  | none => if haltWord = some w then .ok .stop else .error (.unknown w)

/-- The instruction at the head of a list of bytes, and the bytes after it (30 R89: two bytes each). -/
def decodeBytes (haltWord : Option Word) : List Byte → Except DecodeError (Instr × List Byte)
  | hi :: lo :: rest =>
    match decode haltWord (wordOfBytes hi lo) with
    | .ok i => .ok (i, rest)
    | .error e => .error e
  | _ => .error .truncated

/-- The word that the opcode table's bits `w` stand for: the first `nbits` bits, at most the 16 of the
one instruction length (30 R89). -/
def tableWord (nbits w : Nat) : Word := BitVec.ofNat 16 (w % 2 ^ nbits)

/-- The instruction the decoder reads from the table's bits, laid out big-endian, with the default
parameters. -/
def decodeTableWord (nbits w : Nat) : Option Instr :=
  match decodeBytes Config.Params.default.haltWord [wordHi (tableWord nbits w), wordLo (tableWord nbits w)] with
  | .ok (i, _) => some i
  | .error _ => none

/-! ### Encoding (30 R81, R84) -/

/-- The word of an instruction: formats NNN, XNN, XYN and XSUB of 30 R81, high field first. STOP's word is
the machine's halt word (30 R87). -/
def encode (haltWord : Option Word) : Instr → Word
  | .clear => 0x00E0#16
  | .ret => 0x00EE#16
  | .jp nnn => 0x1#4 ++ nnn
  | .call nnn => 0x2#4 ++ nnn
  | .seImm x nn => 0x3#4 ++ x ++ nn
  | .sneImm x nn => 0x4#4 ++ x ++ nn
  | .seReg x y => 0x5#4 ++ x ++ y ++ 0x0#4
  | .ldImm x nn => 0x6#4 ++ x ++ nn
  | .addImm x nn => 0x7#4 ++ x ++ nn
  | .ldReg x y => 0x8#4 ++ x ++ y ++ 0x0#4
  | .or x y => 0x8#4 ++ x ++ y ++ 0x1#4
  | .and x y => 0x8#4 ++ x ++ y ++ 0x2#4
  | .xor x y => 0x8#4 ++ x ++ y ++ 0x3#4
  | .add x y => 0x8#4 ++ x ++ y ++ 0x4#4
  | .sub x y => 0x8#4 ++ x ++ y ++ 0x5#4
  | .shr x y => 0x8#4 ++ x ++ y ++ 0x6#4
  | .subn x y => 0x8#4 ++ x ++ y ++ 0x7#4
  | .shl x y => 0x8#4 ++ x ++ y ++ 0xE#4
  | .sneReg x y => 0x9#4 ++ x ++ y ++ 0x0#4
  | .ldI nnn => 0xA#4 ++ nnn
  | .jpV0 nnn => 0xB#4 ++ nnn
  | .rand x nn => 0xC#4 ++ x ++ nn
  | .draw x y n => 0xD#4 ++ x ++ y ++ n
  | .skipIfPressed x => 0xE#4 ++ x ++ 0x9E#8
  | .skipIfNotPressed x => 0xE#4 ++ x ++ 0xA1#8
  | .ldVxDt x => 0xF#4 ++ x ++ 0x07#8
  | .waitKey x => 0xF#4 ++ x ++ 0x0A#8
  | .ldDtVx x => 0xF#4 ++ x ++ 0x15#8
  | .ldStVx x => 0xF#4 ++ x ++ 0x18#8
  | .addI x => 0xF#4 ++ x ++ 0x1E#8
  | .ldF x => 0xF#4 ++ x ++ 0x29#8
  | .bcd x => 0xF#4 ++ x ++ 0x33#8
  | .regDump x => 0xF#4 ++ x ++ 0x55#8
  | .regLoad x => 0xF#4 ++ x ++ 0x65#8
  | .stop => haltWord.getD 0

/-! ### The opcode table as rows (30 R84, R88) -/

/-- A row of spec/opcode_table.json: a word `w` matches it when `w &&& mask = value`. -/
structure OpcodeRow where
  mnemonic : String
  value : Word
  mask : Word
deriving DecidableEq, Repr

/-- The word matches the row. -/
def OpcodeRow.matches (r : OpcodeRow) (w : Word) : Bool := w &&& r.mask == r.value

/-- The 34 rows of spec/opcode_table.json that have a pattern, in the table's order. -/
def opcodeRows : List OpcodeRow :=
  [⟨"CLEAR", 0x00E0, 0xFFFF⟩, ⟨"RET", 0x00EE, 0xFFFF⟩, ⟨"JP", 0x1000, 0xF000⟩,
   ⟨"CALL", 0x2000, 0xF000⟩, ⟨"SE_IMM", 0x3000, 0xF000⟩, ⟨"SNE_IMM", 0x4000, 0xF000⟩,
   ⟨"SE_REG", 0x5000, 0xF00F⟩, ⟨"LD_IMM", 0x6000, 0xF000⟩, ⟨"ADD_IMM", 0x7000, 0xF000⟩] ++
  [⟨"LD_REG", 0x8000, 0xF00F⟩, ⟨"OR", 0x8001, 0xF00F⟩, ⟨"AND", 0x8002, 0xF00F⟩,
   ⟨"XOR", 0x8003, 0xF00F⟩, ⟨"ADD", 0x8004, 0xF00F⟩, ⟨"SUB", 0x8005, 0xF00F⟩,
   ⟨"SHR", 0x8006, 0xF00F⟩, ⟨"SUBN", 0x8007, 0xF00F⟩, ⟨"SHL", 0x800E, 0xF00F⟩] ++
  [⟨"SNE_REG", 0x9000, 0xF00F⟩, ⟨"LD_I", 0xA000, 0xF000⟩, ⟨"JP_V0", 0xB000, 0xF000⟩,
   ⟨"RAND", 0xC000, 0xF000⟩, ⟨"DRAW", 0xD000, 0xF000⟩, ⟨"SKIP_IF_PRESSED", 0xE09E, 0xF0FF⟩,
   ⟨"SKIP_IF_NOT_PRESSED", 0xE0A1, 0xF0FF⟩] ++
  [⟨"LD_VX_DT", 0xF007, 0xF0FF⟩, ⟨"WAIT_KEY", 0xF00A, 0xF0FF⟩, ⟨"LD_DT_VX", 0xF015, 0xF0FF⟩,
   ⟨"LD_ST_VX", 0xF018, 0xF0FF⟩, ⟨"ADD_I", 0xF01E, 0xF0FF⟩, ⟨"LD_F", 0xF029, 0xF0FF⟩,
   ⟨"BCD", 0xF033, 0xF0FF⟩, ⟨"REG_DUMP", 0xF055, 0xF0FF⟩, ⟨"REG_LOAD", 0xF065, 0xF0FF⟩]

end Sys2Proof
end

