-- ==== Sys2Proof/Machine/State.lean ====
section
/-! DEFINITION. The architectural state (spec/10_state.md R20), the reasons a run can stop, and the state
after reset (R39). Plain data throughout. -/

namespace Sys2Proof.Machine

/-- The fault taxonomy of 10_state.md R33: what a step raises is recorded in `status`, as a NEXT state
(60_exceptions.md R224). -/
inductive Reason where
  | romTooLarge
  | outOfBounds
  | stackOverflow
  | stackUnderflow
  | unknownOpcode (word : Word)
deriving DecidableEq, Repr

/-- The executor status of 10_state.md R30; `waitingKey x` names the register that will receive the key. -/
inductive Status where
  | running
  | waitingKey (x : Reg)
  | halted
  | faulted (r : Reason)
deriving DecidableEq, Repr

/-- What `step()` returns (40_executor.md R100). -/
inductive StepResult where
  | continue
  | halted
  | faulted (r : Reason)
deriving DecidableEq, Repr

/-- What `load` returns (70_reset_and_hazards.md R263). -/
inductive LoadResult where
  | ok
  | romTooLarge
deriving DecidableEq, Repr

/-- The register file V0..VF (10_state.md R21). -/
abbrev Regs := Vector Byte 16

/-- One call-stack entry: a copy of V0..VF and I, and the return address (10_state.md R34, R35). -/
structure Frame where
  v : Regs
  i : Word
  ret : Word
deriving DecidableEq, Repr

/-- Memory as the cells that differ from the contents reset leaves without a ROM
(`Memory.background`), by rising address. -/
abbrev Memory := List Host.Cell

/-- 32 rows of 64 cells, row 0 first; in a row the leftmost column 0 is the most significant bit, and a set
bit is a lit cell (10_state.md R31; DESIGN CHOICE of the representation, safe, log entry 17). -/
abbrev FrameBuffer := Vector (BitVec 64) 32

/-- A transaction of 00_scope.md R6 that the environment performs. -/
inductive Event where
  /-- The host calls `step()`. -/
  | step
  /-- The timer clock calls `tick()`. -/
  | tick
  /-- The input source calls `set_key_pressed(code, pressed)`. -/
  | setKeyPressed (code : Nat) (pressed : Bool)
  /-- The display driver takes a `framebuffer()` snapshot. -/
  | framebuffer
  /-- The host calls `reset(rom)`. -/
  | reset (rom : List Byte)
  /-- The host calls `load(bytes)` outside a reset. -/
  | load (bytes : List Byte)
deriving DecidableEq, Repr

/-- The state of one core instance: the record of 10_state.md R20, the parameters it was built with, and two
fields of the model's own (`draws`, `inputs`). -/
structure State where
  /-- The 4096 bytes (20_memory.md R50), as differences from reset. -/
  mem : Memory
  /-- V0..VF (10 R21). -/
  v : Regs
  /-- The index register I (10 R24). -/
  i : Word
  /-- The program counter PC (10 R25). -/
  pc : Word
  /-- The delay timer DT (10 R26). -/
  dt : Byte
  /-- The sound timer ST (10 R27). -/
  st : Byte
  /-- The call stack STK, the top frame first (10 R28; log entry 11). -/
  stk : List Frame
  /-- The framebuffer FB (10 R31). -/
  fb : FrameBuffer
  /-- The key latch KEY, true when pressed (10 R29). -/
  key : Vector Bool 16
  /-- The executor status (10 R30). -/
  status : Status
  /-- The core's OPEN parameters (00 R8); no transaction writes them. -/
  params : Config.Params
  /-- The model's own: how many random bytes have been drawn, the argument of the free value
  `Config.randomByte` (log entry 5). -/
  draws : Nat
  /-- The model's own: the transactions the environment performs from here on, in order. When the list is
  empty the host goes on calling `step()` (log entry 1). -/
  inputs : List Event
deriving DecidableEq, Repr

/-- Why the machine stops with no next state. -/
inductive Fault where
  /-- Raised by `Machine.step` alone: the executor is parked in `WaitingKey` and no transaction that could
  lift the wait is scheduled, so the pending `step()` never returns (40_executor.md R109, 93 K13 "stuck").
  Safe: the hardware has no next state either until the environment acts (log entry 2). -/
  | keyHold
deriving DecidableEq, Repr

/-- Why a transaction or an instruction has no meaning in this model. -/
inductive Refusal where
  /-- An instruction of the table that has no meaning yet; raised by `exec`'s arm. No arm does so. Safe. -/
  | notModelled (mnemonic : String)
  /-- Raised by the `load` transaction outside a reset, which the spec refuses (70 R264, 93 K15). Safe. -/
  | loadOutsideReset
  /-- Raised by `set_key_pressed` with a code above 15, which the spec refuses (45 R212, 93 K14). Safe. -/
  | keyCodeOutOfRange (code : Nat)
  /-- Raised by `State.construct` with a HALT_WORD outside the illegal words, which the spec refuses
  (30 R87). Safe. -/
  | haltWordNotIllegal (word : Word)
deriving DecidableEq, Repr

/-- What a meaning answers. -/
abbrev Answer := Host.Outcome State Fault Refusal

/-- The machine right after `reset(rom)` with the empty ROM and the default parameters: every value is the
one of 10_state.md R39 (the model's own `draws` and `inputs`: DESIGN CHOICE 0 and empty, log entries 1
and 5). -/
def State.reset : State :=
  { mem := []
    v := Vector.replicate 16 0
    i := 0
    pc := 0x200
    dt := 0
    st := 0
    stk := []
    fb := Vector.replicate 32 0
    key := Vector.replicate 16 false
    status := .running
    params := Config.Params.default
    draws := 0
    inputs := [] }

end Sys2Proof.Machine
end

