-- ==== Sys2Proof/Machine/Ops.lean ====
section
/-! DEFINITION. The named operations over memory, registers, call stack, key latch and status, and taking a
fault (spec/20_memory.md, 10_state.md, 60_exceptions.md R224). -/

namespace Sys2Proof.Machine

/-! ### Memory as data (20 R50) -/

/-- What an address that is not listed reads as: the contents reset gives it without a ROM, FONT_DATA at
0x050..0x09F and 0x00 elsewhere (10 R39). -/
def Memory.background (font : Vector Byte Config.fontSize) (a : Nat) : Byte :=
  if Config.fontBase ≤ a then font[a - Config.fontBase]?.getD 0 else 0

/-- The byte at an address. -/
def Memory.read (font : Vector Byte Config.fontSize) : Memory → Nat → Byte
  | [], a => Memory.background font a
  | (b, w) :: rest, a => if a = b then w else Memory.read font rest a

/-- The memory without any cell for an address: it reads as the background there. -/
def Memory.erase : Memory → Nat → Memory
  | [], _ => []
  | (b, w) :: rest, a => if a = b then Memory.erase rest a else (b, w) :: Memory.erase rest a

/-- Put a cell in its place by rising address. -/
def Memory.insert : Memory → Nat → Byte → Memory
  | [], a, w => [(a, w)]
  | (b, u) :: rest, a, w => if a < b then (a, w) :: (b, u) :: rest else (b, u) :: Memory.insert rest a w

/-- Store one byte, keeping the canonical form: what the background already holds is not listed. -/
def Memory.write (font : Vector Byte Config.fontSize) (m : Memory) (a : Nat) (b : Byte) : Memory :=
  if b = Memory.background font a then m.erase a else (m.erase a).insert a b

/-- Store bytes at consecutive increasing addresses (20 R54). -/
def Memory.writeBytes (font : Vector Byte Config.fontSize) : Memory → Nat → List Byte → Memory
  | m, _, [] => m
  | m, a, b :: bs => Memory.writeBytes font (Memory.write font m a b) (a + 1) bs

/-- The canonical form: addresses from `lo` on strictly rising and inside the memory, no entry equal to the
background. -/
def Memory.wfFrom (font : Vector Byte Config.fontSize) : Nat → Memory → Bool
  | _, [] => true
  | lo, (a, b) :: rest =>
    decide (lo ≤ a) && decide (a < Config.memSize) && (b != Memory.background font a) &&
      Memory.wfFrom font (a + 1) rest

/-- The canonical form of a whole memory. -/
def Memory.wf (font : Vector Byte Config.fontSize) (m : Memory) : Bool := Memory.wfFrom font 0 m

/-! ### Memory of a state (00 R13, 20 R55, R56) -/

/-- `mem[a]`, for an address that has been checked. -/
def State.readByte (s : State) (a : Nat) : Byte := Memory.read s.params.font s.mem a

/-- Every byte of an access of `n` bytes at base `b` is inside the memory; an access of 0 bytes checks
nothing (20 R56). Addresses are exact integers, never reduced (20 R55). -/
def accessOk (base n : Nat) : Bool := n == 0 || decide (base + n - 1 < Config.memSize)

/-- Read `n` bytes at consecutive increasing addresses, every address checked first (20 R54, R56). -/
def State.loadBytes (s : State) (base n : Nat) : Except Reason (List Byte) :=
  if accessOk base n then .ok ((List.range n).map fun k => s.readByte (base + k))
  else .error .outOfBounds

/-- Store bytes at consecutive increasing addresses, every address checked first (20 R54, R56). There is no
write protection (20 R59). -/
def State.storeBytes (s : State) (base : Nat) (bs : List Byte) : Except Reason State :=
  if accessOk base bs.length then .ok { s with mem := Memory.writeBytes s.params.font s.mem base bs }
  else .error .outOfBounds

/-- The instruction word at PC, big-endian (20 R52); needs PC and PC+1 inside the memory (20 R58,
40 R102). -/
def State.fetch (s : State) : Except Reason Word :=
  if accessOk s.pc.toNat 2 then .ok (wordOfBytes (s.readByte s.pc.toNat) (s.readByte (s.pc.toNat + 1)))
  else .error .outOfBounds

/-! ### Registers (00 R12) -/

/-- `V[x]`. -/
def State.getV (s : State) (x : Reg) : Byte := s.v[x.toNat]

/-- `V[x] <- b`. -/
def State.setV (s : State) (x : Reg) (b : Byte) : State := { s with v := s.v.set x.toNat b }

/-- `V[k], V[k+1], ... <- bytes`. -/
def State.setVs (s : State) (k : Nat) : List Byte → State
  | [] => s
  | b :: bs => State.setVs (s.setV (BitVec.ofNat 4 k) b) (k + 1) bs

/-- `V[0] .. V[x]`, the registers REG_DUMP stores. -/
def State.getVs (s : State) (x : Reg) : List Byte :=
  (List.range (x.toNat + 1)).map fun k => s.getV (BitVec.ofNat 4 k)

/-- The flag register VF (10 R23). -/
abbrev flagReg : Reg := 0xF#4

/-- `PC <- PC + 2`: the successor of an instruction that does not jump (40 R105). -/
def State.advance (s : State) : State := { s with pc := s.pc + 2 }

/-- The successor of a skip instruction: PC + 4 when the condition holds, else PC + 2 (40 R105). -/
def State.skipIf (s : State) (c : Bool) : State := { s with pc := if c then s.pc + 4 else s.pc + 2 }

/-- One draw from the random source: the free byte, and the state with the draw counted (42 R160). -/
def State.draw (s : State) : Byte × State := (Config.randomByte s.draws, { s with draws := s.draws + 1 })

/-! ### Key latch (10 R29) -/

/-- `KEY[k]`. -/
def State.getKey (s : State) (k : BitVec 4) : Bool := s.key[k.toNat]

/-- `KEY[k] <- p`. -/
def State.setKey (s : State) (k : BitVec 4) (p : Bool) : State := { s with key := s.key.set k.toNat p }

/-! ### Call stack (10 R28) -/

/-- Push V0..VF, I and a return address; StackOverflow when STACK_DEPTH frames are on the stack
(41 R123). -/
def State.push (s : State) (ret : Word) : Except Reason State :=
  if Config.stackDepth ≤ s.stk.length then .error .stackOverflow
  else .ok { s with stk := { v := s.v, i := s.i, ret := ret } :: s.stk }

/-- Pop the top frame and restore V0..VF, I and PC from it; StackUnderflow on an empty stack (41 R121). -/
def State.popRestore (s : State) : Except Reason State :=
  match s.stk with
  | [] => .error .stackUnderflow
  | f :: rest => .ok { s with v := f.v, i := f.i, pc := f.ret, stk := rest }

/-! ### Taking a fault (60 R224) -/

/-- `raise r`: status becomes Faulted(r) and nothing else changes; PC keeps the address of the faulting
instruction. There is no handler, no saved state, and no return but reset (60 R226). -/
def State.raise (s : State) (r : Reason) : State := { s with status := .faulted r }

/-- The answer of an instruction that started in `s`: its result, or the fault taken from `s` with every
write of the instruction discarded (00 R14, 40 R111). -/
def State.finish (s : State) : Except Reason State → Answer
  | .ok t => .next t
  | .error r => .next (s.raise r)

/-- `Result(status)`: what a `step()` that leaves this state returns (40 R100). -/
def State.result (s : State) : StepResult :=
  match s.status with
  | .running => .continue
  | .waitingKey _ => .continue
  | .halted => .halted
  | .faulted r => .faulted r

/-! ### Load and reset (70 R260, R263) -/

/-- `load(b)`: the ROM from 0x200, or RomTooLarge with nothing copied and status Faulted(RomTooLarge)
(70 R263). -/
def State.load (s : State) (b : List Byte) : LoadResult × State :=
  if Config.memSize - Config.progBase < b.length then (.romTooLarge, s.raise .romTooLarge)
  else (.ok, { s with mem := Memory.writeBytes s.params.font s.mem Config.progBase b })

/-- Every piece of architectural state at its reset value, before the ROM is loaded (70 R260). The parameters
are the core's own and stay; so do the model's own fields. -/
def State.clear (s : State) : State :=
  { s with
    mem := [], v := Vector.replicate 16 0, i := 0, pc := 0x200, dt := 0, st := 0, stk := []
    fb := Vector.replicate 32 0, key := Vector.replicate 16 false, status := .running }

/-- `reset(rom)` (70 R260): clear, then load. -/
def State.resetWith (s : State) (rom : List Byte) : State := (s.clear.load rom).2

/-- Building a core with given parameters and its first ROM: "construction of a core is `reset(rom)`"
(70 R260). A HALT_WORD outside the illegal words is refused (30 R87). -/
def State.construct (p : Config.Params) (rom : List Byte) : Answer :=
  match p.haltWord with
  | some w => if illegalWord w then .next (State.resetWith { State.reset with params := p } rom)
              else .refused (.haltWordNotIllegal w)
  | none => .next (State.resetWith { State.reset with params := p } rom)

/-- The state with a word stored where `fetch` reads next and the executor running on it, with nothing
else scheduled; a PC that cannot be fetched from is moved to 0x200 first. It stands for the load of a
program from outside (log entry 20). -/
def State.placeWord (s : State) (w : Word) : State :=
  let pc : Word := if accessOk s.pc.toNat 2 then s.pc else 0x200
  { s with
    mem := Memory.writeBytes s.params.font s.mem pc.toNat [wordHi w, wordLo w]
    pc := pc, status := .running, inputs := [] }

end Sys2Proof.Machine
end

