-- ==== Sys2Proof/Machine/Flags.lean ====
section
/-! DEFINITION. The flag computations, every one a 0 or 1 written to VF, and the order of the result and the
flag write (42_alu.md R146-R151, R153; 44_display.md R191). -/

namespace Sys2Proof.Machine

/-- A truth value as the byte VF receives. -/
def flagByte (c : Bool) : Byte := if c then 1 else 0

/-- ADD: 1 iff the exact sum is 256 or more (42 R146). -/
def carryFlag (a b : Byte) : Byte := flagByte (decide (256 ≤ a.toNat + b.toNat))

/-- SUB and SUBN: 1 iff there is no borrow in `a - b` (42 R147, R149). -/
def notBorrowFlag (a b : Byte) : Byte := flagByte (decide (b.toNat ≤ a.toNat))

/-- SHR: the old bit 0 (42 R148). -/
def lowBitFlag (a : Byte) : Byte := a &&& 1

/-- SHL: the old bit 7 (42 R150). -/
def highBitFlag (a : Byte) : Byte := (a >>> 7) &&& 1

/-- The result goes to V[x] first and the flag to VF last, so the flag wins when x is VF (42 R151). -/
def State.setResultFlag (s : State) (x : Reg) (result flag : Byte) : State :=
  (s.setV x result).setV flagReg flag

end Sys2Proof.Machine
end

