-- ==== Sys2Proof/Machine/Alu.lean ====
section
/-! DEFINITION. Register and arithmetic instructions: spec/42_alu.md. Operands are read before any write
(40_executor.md R112); every one ends with PC + 2. -/

namespace Sys2Proof.Machine

/-- LD Vx, NN (42 R140). -/
def execLdImm (x : Reg) (nn : Byte) (s : State) : Answer := .next (s.setV x nn).advance

/-- ADD Vx, NN (42 R141): VF is not written as a flag. -/
def execAddImm (x : Reg) (nn : Byte) (s : State) : Answer := .next (s.setV x (s.getV x + nn)).advance

/-- LD Vx, Vy (42 R142). -/
def execLdReg (x y : Reg) (s : State) : Answer := .next (s.setV x (s.getV y)).advance

/-- OR Vx, Vy (42 R143). -/
def execOr (x y : Reg) (s : State) : Answer := .next (s.setV x (s.getV x ||| s.getV y)).advance

/-- AND Vx, Vy (42 R144). -/
def execAnd (x y : Reg) (s : State) : Answer := .next (s.setV x (s.getV x &&& s.getV y)).advance

/-- XOR Vx, Vy (42 R145). -/
def execXor (x y : Reg) (s : State) : Answer := .next (s.setV x (s.getV x ^^^ s.getV y)).advance

/-- ADD Vx, Vy (42 R146). -/
def execAdd (x y : Reg) (s : State) : Answer :=
  .next (s.setResultFlag x (s.getV x + s.getV y) (carryFlag (s.getV x) (s.getV y))).advance

/-- SUB Vx, Vy (42 R147). -/
def execSub (x y : Reg) (s : State) : Answer :=
  .next (s.setResultFlag x (s.getV x - s.getV y) (notBorrowFlag (s.getV x) (s.getV y))).advance

/-- SHR Vx (42 R148): the Y field is not used (30 R83). -/
def execShr (x _y : Reg) (s : State) : Answer :=
  .next (s.setResultFlag x (s.getV x >>> 1) (lowBitFlag (s.getV x))).advance

/-- SUBN Vx, Vy (42 R149). -/
def execSubn (x y : Reg) (s : State) : Answer :=
  .next (s.setResultFlag x (s.getV y - s.getV x) (notBorrowFlag (s.getV y) (s.getV x))).advance

/-- SHL Vx (42 R150): the Y field is not used (30 R83). -/
def execShl (x _y : Reg) (s : State) : Answer :=
  .next (s.setResultFlag x (s.getV x <<< 1) (highBitFlag (s.getV x))).advance

/-- RND Vx, NN (42 R160): a fresh free byte, masked; the draw happens for every NN. -/
def execRand (x : Reg) (nn : Byte) (s : State) : Answer :=
  .next (s.draw.2.setV x (s.draw.1 &&& nn)).advance

end Sys2Proof.Machine
end

