-- ==== Sys2Proof/Machine/Operands.lean ====
section
/-! DEFINITION. The operand forms: how an instruction turns its fields and registers into values, addresses,
key indexes and coordinates (30_encoding.md R82, 43_index_memory.md R176). -/

namespace Sys2Proof.Machine

/-- `zext_16(NNN)`: an address, never scaled or sign-extended (30 R82). -/
def zextAddr (nnn : Addr12) : Word := nnn.setWidth 16

/-- `zext_16` of a byte (00 R14). -/
def zextByte (b : Byte) : Word := b.setWidth 16

/-- The base of a data access: I as an exact integer; byte `k` of the operand is at `I + k` (43 R176). -/
def State.base (s : State) : Nat := s.i.toNat

/-- The key a register selects: `V[X] & 0x0F` (45 R200). -/
def keyIndex (b : Byte) : BitVec 4 := (b &&& 0x0F).setWidth 4

/-- The address of the glyph a register selects: `0x050 + 5 * (V[X] & 0x0F)` (43 R172). -/
def glyphAddr (b : Byte) : Word := 0x050 + 5 * zextByte (b &&& 0x0F)

/-- The origin column of a sprite: `V[X] mod 64` (44 R191). -/
def originColumn (b : Byte) : Nat := b.toNat % 64

/-- The origin row of a sprite: `V[Y] mod 32` (44 R191). -/
def originRow (b : Byte) : Nat := b.toNat % 32

/-- The decimal digits of a byte, hundreds first (43 R173). -/
def bcdDigits (b : Byte) : List Byte :=
  [BitVec.ofNat 8 (b.toNat / 100), BitVec.ofNat 8 (b.toNat / 10 % 10), BitVec.ofNat 8 (b.toNat % 10)]

end Sys2Proof.Machine
end

