-- ==== Sys2Proof/Machine/ControlFlow.lean ====
section
/-! DEFINITION. Control flow: spec/41_control_flow.md, and STOP of 40_executor.md R108. Targets are absolute
and never checked here; a bad one faults at the next fetch (41 R120, 40 R106). -/

namespace Sys2Proof.Machine

/-- RET (41 R121). -/
def execRet (s : State) : Answer := s.finish s.popRestore

/-- JP NNN (41 R122). -/
def execJp (nnn : Addr12) (s : State) : Answer := .next { s with pc := zextAddr nnn }

/-- CALL NNN (41 R123): the frame's return address is the instruction after the call. -/
def execCall (nnn : Addr12) (s : State) : Answer :=
  s.finish ((s.push (s.pc + 2)).map fun t => { t with pc := zextAddr nnn })

/-- SE Vx, NN (41 R124). -/
def execSeImm (x : Reg) (nn : Byte) (s : State) : Answer := .next (s.skipIf (s.getV x == nn))

/-- SNE Vx, NN (41 R125). -/
def execSneImm (x : Reg) (nn : Byte) (s : State) : Answer := .next (s.skipIf (s.getV x != nn))

/-- SE Vx, Vy (41 R126). -/
def execSeReg (x y : Reg) (s : State) : Answer := .next (s.skipIf (s.getV x == s.getV y))

/-- SNE Vx, Vy (41 R127). -/
def execSneReg (x y : Reg) (s : State) : Answer := .next (s.skipIf (s.getV x != s.getV y))

/-- JP V0, NNN (41 R129): an exact sum, not masked to 12 bits. -/
def execJpV0 (nnn : Addr12) (s : State) : Answer :=
  .next { s with pc := zextAddr nnn + zextByte (s.getV 0) }

/-- STOP (40 R108): PC is unchanged. -/
def execStop (s : State) : Answer := .next { s with status := .halted }

end Sys2Proof.Machine
end

