-- ==== Sys2Proof/Machine/Framebuffer.lean ====
section
/-! DEFINITION. The operations on the framebuffer: cells, clearing, XOR blitting with clipping and collision
(10_state.md R31, 44_display.md R190-R193). -/

namespace Sys2Proof.Machine

/-- The cell at row `r`, column `c`; false outside the 32 by 64 grid. -/
def FrameBuffer.cell (fb : FrameBuffer) (r c : Nat) : Bool := (fb[r]?.getD 0).getMsbD c

/-- All cells unlit (44 R190). -/
def FrameBuffer.blank : FrameBuffer := Vector.replicate 32 0

/-- The cells of one row that a sprite byte at origin column `x0` touches: bit 7 is the leftmost pixel, and
pixels past column 63 are shifted out, that is clipped (44 R191, R192). -/
def spriteRow (b : Byte) (x0 : Nat) : BitVec 64 := (b ++ 0#56) >>> x0

/-- XOR one sprite byte onto row `r`, clipped when there is no such row; the flag becomes true if a lit cell
goes out (44 R191, R192). -/
def FrameBuffer.drawRow (fb : FrameBuffer) (hit : Bool) (x0 r : Nat) (b : Byte) : FrameBuffer × Bool :=
  if h : r < 32 then
    (fb.set r (fb[r] ^^^ spriteRow b x0), hit || (fb[r] &&& spriteRow b x0 != 0))
  else (fb, hit)

/-- Draw the sprite's bytes, one row each, from row `r` down (44 R191). -/
def FrameBuffer.drawRows (fb : FrameBuffer) (hit : Bool) (x0 r : Nat) : List Byte → FrameBuffer × Bool
  | [] => (fb, hit)
  | b :: bs =>
    FrameBuffer.drawRows (fb.drawRow hit x0 r b).1 (fb.drawRow hit x0 r b).2 x0 (r + 1) bs

/-- Draw a whole sprite at origin column `x0`, row `y0`: the new framebuffer and whether any pixel collided
(44 R191). -/
def FrameBuffer.drawSprite (fb : FrameBuffer) (x0 y0 : Nat) (sprite : List Byte) : FrameBuffer × Bool :=
  fb.drawRows false x0 y0 sprite

end Sys2Proof.Machine
end

