-- ==== Sys2Proof/Machine/Display.lean ====
section
/-! DEFINITION. Framebuffer instructions: spec/44_display.md. -/

namespace Sys2Proof.Machine

/-- CLS (44 R190): VF is not written. -/
def execClear (s : State) : Answer := .next { s with fb := FrameBuffer.blank }.advance

/-- The state after a sprite of the given bytes is drawn: FB XORed, VF the collision flag, both from the
coordinates read before VF is written (44 R191, R194). -/
def State.blit (s : State) (x y : Reg) (sprite : List Byte) : State :=
  let drawn := s.fb.drawSprite (originColumn (s.getV x)) (originRow (s.getV y)) sprite
  { s with fb := drawn.1 }.setV flagReg (flagByte drawn.2)

/-- DRW Vx, Vy, N (44 R191): all N bytes are read and checked, clipped rows too (44 R193); OutOfBounds before
any write. -/
def execDraw (x y : Reg) (n : Nibble) (s : State) : Answer :=
  s.finish ((s.loadBytes s.base n.toNat).map fun sprite => (s.blit x y sprite).advance)

end Sys2Proof.Machine
end

