-- ==== Sys2Proof/Machine/IndexMemory.lean ====
section
/-! DEFINITION. Index register and memory instructions: spec/43_index_memory.md. A data access is at I plus a
constant offset, checked whole before any access; I is not modified (43 R176). -/

namespace Sys2Proof.Machine

/-- LD I, NNN (43 R170). -/
def execLdI (nnn : Addr12) (s : State) : Answer := .next { s with i := zextAddr nnn }.advance

/-- ADD I, Vx (43 R171): wraps at 16 bits, VF is not written. -/
def execAddI (x : Reg) (s : State) : Answer := .next { s with i := s.i + zextByte (s.getV x) }.advance

/-- LD F, Vx (43 R172). -/
def execLdF (x : Reg) (s : State) : Answer := .next { s with i := glyphAddr (s.getV x) }.advance

/-- LD B, Vx (43 R173): OutOfBounds when I + 2 >= 4096, before any write. -/
def execBcd (x : Reg) (s : State) : Answer :=
  s.finish ((s.storeBytes s.base (bcdDigits (s.getV x))).map State.advance)

/-- LD [I], Vx (43 R174): OutOfBounds when I + X >= 4096, before any write. -/
def execRegDump (x : Reg) (s : State) : Answer :=
  s.finish ((s.storeBytes s.base (s.getVs x)).map State.advance)

/-- LD Vx, [I] (43 R175): OutOfBounds when I + X >= 4096, before any register write. -/
def execRegLoad (x : Reg) (s : State) : Answer :=
  s.finish ((s.loadBytes s.base (x.toNat + 1)).map fun bs => (s.setVs 0 bs).advance)

end Sys2Proof.Machine
end

