-- ==== Sys2Proof/Machine/TimerInput.lean ====
section
/-! DEFINITION. Timer and input instructions: spec/45_timers_input.md. -/

namespace Sys2Proof.Machine

/-- SKP Vx (45 R200). -/
def execSkipIfPressed (x : Reg) (s : State) : Answer :=
  .next (s.skipIf (s.getKey (keyIndex (s.getV x))))

/-- SKNP Vx (45 R201). -/
def execSkipIfNotPressed (x : Reg) (s : State) : Answer :=
  .next (s.skipIf (!s.getKey (keyIndex (s.getV x))))

/-- LD Vx, DT (45 R202). -/
def execLdVxDt (x : Reg) (s : State) : Answer := .next (s.setV x s.dt).advance

/-- LD Vx, K (45 R203): the executor parks; PC and V stay until the key press of R210. -/
def execWaitKey (x : Reg) (s : State) : Answer := .next { s with status := .waitingKey x }

/-- LD DT, Vx (45 R204). -/
def execLdDtVx (x : Reg) (s : State) : Answer := .next { s with dt := s.getV x }.advance

/-- LD ST, Vx (45 R205). -/
def execLdStVx (x : Reg) (s : State) : Answer := .next { s with st := s.getV x }.advance

end Sys2Proof.Machine
end

