-- ==== Sys2Proof/Machine/Events.lean ====
section
/-! DEFINITION. The transactions of the agents other than the host's `step()`: the timer tick, the key event
and the framebuffer snapshot (spec/60_exceptions.md R240, 45_timers_input.md R210-R213, 44_display.md
R195). Load and reset are in Ops.lean. -/

namespace Sys2Proof.Machine

/-- One decrement of a timer: down to zero, never below (60 R240). -/
def decrement (t : Byte) : Byte := if t = 0 then 0 else t - 1

/-- Both timers counted down in one atomic event (60 R240). -/
def State.countDown (s : State) : State := { s with dt := decrement s.dt, st := decrement s.st }

/-- `tick()` (60 R240): nothing in Halted or Faulted; in a key wait the timers go on (45 R211). -/
def State.tick (s : State) : State :=
  match s.status with
  | .running => s.countDown
  | .waitingKey _ => s.countDown
  | .halted => s
  | .faulted _ => s

/-- The key press that resolves a wait: latch, register, PC and status in one event (45 R210). -/
def State.resolveWait (s : State) (x : Reg) (k : BitVec 4) : State :=
  { ((s.setKey k true).setV x (k.setWidth 8)).advance with status := .running }

/-- `set_key_pressed(k, p)` (45 R212): a press during a key wait resolves it, whether or not the key was
already held (R210); a release only updates the latch (R211), as does any key event in another status. -/
def State.setKeyPressed (s : State) (k : BitVec 4) (p : Bool) : State :=
  match s.status with
  | .waitingKey x => if p then s.resolveWait x k else s.setKey k p
  | .running => s.setKey k p
  | .halted => s.setKey k p
  | .faulted _ => s.setKey k p

/-- `framebuffer()` (44 R195): the snapshot; it changes no state. -/
def State.framebuffer (s : State) : FrameBuffer := s.fb

end Sys2Proof.Machine
end

