-- ==== Sys2Proof/Machine/Executor.lean ====
section
/-! DEFINITION. The step transaction (spec/40_executor.md), the performing of a scheduled transaction
(00_scope.md R6), and the optional trace (60_exceptions.md R247). -/

namespace Sys2Proof.Machine

/-- The instruction at PC, or the fault the fetch or the decoder raises (40 R101, R102, R104; 60 R227 (1),
(2)). -/
def State.fetchDecode (s : State) : Except Reason Instr :=
  match s.fetch with
  | .error r => .error r
  | .ok w =>
    match decode s.params.haltWord w with
    | .ok i => .ok i
    | .error _ => .error (.unknownOpcode w)

/-- `RunOne` (40 R101): fetch, decode, execute one instruction. -/
def State.runOne (s : State) : Answer :=
  match s.fetchDecode with
  | .error r => .next (s.raise r)
  | .ok i => exec i s

/-- A call of `step()` by the host (40 R100). In WaitingKey the call does not return while nothing lifts the
wait (R109): the named fault. In Halted and Faulted nothing changes (R107); what the call returns is
`State.result`. -/
def State.stepCall (s : State) : Answer :=
  match s.status with
  | .running => s.runOne
  | .waitingKey _ => .fault .keyHold
  | .halted => .next s
  | .faulted _ => .next s

/-- Perform one transaction of 00 R6, atomically (20 R64). -/
def State.perform (s : State) (e : Event) : Answer :=
  match e with
  | .step => s.stepCall
  | .tick => .next s.tick
  | .setKeyPressed code p =>
    if code ≤ 15 then .next (s.setKeyPressed (BitVec.ofNat 4 code) p)
    else .refused (.keyCodeOutOfRange code)
  | .framebuffer => .next s
  | .reset rom => .next (s.resetWith rom)
  | .load _ => .refused .loadOutsideReset

/-- The transactions that can take place from here on. In WaitingKey the executor has no step (92 D32): a
call of `step()` at the head blocks, runs no instruction, and returns when a later event lifts the wait
(40 R109, 45 R210), so the event after it comes first (log entry 2). -/
def State.schedule (s : State) : List Event :=
  match s.status with
  | .running => s.inputs
  | .waitingKey _ => s.inputs.dropWhile (· == .step)
  | .halted => s.inputs
  | .faulted _ => s.inputs

/-- One transaction: the next one that can take place, or else the host's `step()` (20 R64). -/
def State.transact (s : State) : Answer :=
  match s.schedule with
  | [] => State.stepCall { s with inputs := [] }
  | e :: rest => State.perform { s with inputs := rest } e

/-! ### Trace (60 R247)

The spec names the record's fields and leaves the rest open (91 N37). DESIGN CHOICE, safe, log entry 21: which
registers the deltas cover, which steps give a record, and the layout. -/

/-- The registers of the Register File (10 R20): V0..VF, I, PC, DT, ST. That the deltas cover exactly these is
DESIGN CHOICE (log entry 21). -/
inductive RegisterName where
  | v (r : Reg)
  | i
  | pc
  | dt
  | st
deriving DecidableEq, Repr

/-- Every register, V0 first. -/
def RegisterName.all : List RegisterName :=
  (List.range 16).map (fun k => .v (BitVec.ofNat 4 k)) ++ [.i, .pc, .dt, .st]

/-- The value of a register; the 8-bit ones zero-extended. -/
def State.register (s : State) : RegisterName → Word
  | .v r => (s.getV r).setWidth 16
  | .i => s.i
  | .pc => s.pc
  | .dt => s.dt.setWidth 16
  | .st => s.st.setWidth 16

/-- A register that changed, with its value before and after. -/
structure RegisterDelta where
  register : RegisterName
  before : Word
  after : Word
deriving DecidableEq, Repr

/-- The registers that differ between two states, in the order of `RegisterName.all`. -/
def registerDeltas (s t : State) : List RegisterDelta :=
  (RegisterName.all.map fun r => { register := r, before := s.register r, after := t.register r }).filter
    fun d => d.before != d.after

/-- The fields R247 names: address, decoded opcode with its operands, and the register deltas
(DESIGN CHOICE of the layout, safe, log entry 21). -/
structure TraceRecord where
  address : Word
  word : Word
  instr : Instr
  deltas : List RegisterDelta
deriving DecidableEq, Repr

/-- The record of the instruction that a `step()` in this state runs. It is an output only. DESIGN CHOICE (log
entry 21): an instruction whose own check faults has a record, with no deltas; a step whose fetch or decoding
faults, or that runs no instruction, has none; the register write that ends a key wait is in no record,
since a key event makes it. -/
def State.traceRecord (s : State) : Option TraceRecord :=
  match s.status, s.fetch, s.fetchDecode with
  | .running, .ok w, .ok i =>
    match exec i s with
    | .next t => some { address := s.pc, word := w, instr := i, deltas := registerDeltas s t }
    | .fault _ => none
    | .refused _ => none
  | _, _, _ => none

end Sys2Proof.Machine
end

