-- ==== Sys2Proof/Machine/Step.lean ====
section
/-! DEFINITION. The machine's one step, and placing a word where it fetches next. -/

namespace Sys2Proof.Machine

/-- One atomic transaction (20_memory.md R64): the next scheduled one, or the host's `step()`. -/
def step (s : State) : Host.Outcome State Fault Refusal := s.transact

/-- The state with the instruction whose opcode-table bits are `w` placed where `step` fetches next. -/
def State.withFetchWord (s : State) (nbits w : Nat) : State := s.placeWord (tableWord nbits w)

end Sys2Proof.Machine
end

