-- ==== Sys2Proof/Safety.lean ====
section
/-! DEFINITION. The vocabulary of claims: which pieces of state two states share, what each instruction may
write, the pixels of a sprite, and the invariant of the machine. -/

namespace Sys2Proof

namespace Machine

/-! ### Frames -/

/-- The pieces of state of 10_state.md R20, and the model's own. -/
inductive Field where
  | mem | v | i | pc | dt | st | stk | fb | key | status | params | draws | inputs
deriving DecidableEq, Repr

/-- Two states agree on a piece: memory byte by byte as it reads, registers one by one. -/
def State.sameField (s t : State) : Field → Prop
  | .mem => ∀ a, t.readByte a = s.readByte a
  | .v => ∀ r, t.getV r = s.getV r
  | .i => t.i = s.i
  | .pc => t.pc = s.pc
  | .dt => t.dt = s.dt
  | .st => t.st = s.st
  | .stk => t.stk = s.stk
  | .fb => t.fb = s.fb
  | .key => t.key = s.key
  | .status => t.status = s.status
  | .params => t.params = s.params
  | .draws => t.draws = s.draws
  | .inputs => t.inputs = s.inputs

/-- Between `s` and `t` every piece not named is unchanged. -/
def State.changesOnly (s t : State) (fs : List Field) : Prop := ∀ f, f ∉ fs → s.sameField t f

/-- Every general register but those named is unchanged. -/
def State.keepsRegsBut (s t : State) (rs : List Reg) : Prop := ∀ r, r ∉ rs → t.getV r = s.getV r

/-- Every byte of memory outside the `n` bytes from `base` on reads as before. -/
def State.keepsBytesOutside (s t : State) (base n : Nat) : Prop :=
  ∀ a, a < base ∨ base + n ≤ a → t.readByte a = s.readByte a

end Machine

open Machine

/-- The pieces of state an instruction may write when it does not fault (40_executor.md R105, 10_state.md
R22 to R31). -/
def Instr.writes : Instr → List Field
  | .clear => [.fb, .pc]
  | .ret => [.v, .i, .pc, .stk]
  | .jp _ => [.pc]
  | .call _ => [.stk, .pc]
  | .seImm _ _ => [.pc]
  | .sneImm _ _ => [.pc]
  | .seReg _ _ => [.pc]
  | .ldImm _ _ => [.v, .pc]
  | .addImm _ _ => [.v, .pc]
  | .ldReg _ _ => [.v, .pc]
  | .or _ _ => [.v, .pc]
  | .and _ _ => [.v, .pc]
  | .xor _ _ => [.v, .pc]
  | .add _ _ => [.v, .pc]
  | .sub _ _ => [.v, .pc]
  | .shr _ _ => [.v, .pc]
  | .subn _ _ => [.v, .pc]
  | .shl _ _ => [.v, .pc]
  | .sneReg _ _ => [.pc]
  | .ldI _ => [.i, .pc]
  | .jpV0 _ => [.pc]
  | .rand _ _ => [.v, .pc, .draws]
  | .draw _ _ _ => [.fb, .v, .pc]
  | .skipIfPressed _ => [.pc]
  | .skipIfNotPressed _ => [.pc]
  | .ldVxDt _ => [.v, .pc]
  | .waitKey _ => [.status]
  | .ldDtVx _ => [.dt, .pc]
  | .ldStVx _ => [.st, .pc]
  | .addI _ => [.i, .pc]
  | .ldF _ => [.i, .pc]
  | .bcd _ => [.mem, .pc]
  | .regDump _ => [.mem, .pc]
  | .regLoad _ => [.v, .pc]
  | .stop => [.status]

/-- The general registers an instruction writes (10_state.md R22, R23); FX0A's write comes at the key press.
Every instruction not named writes none. -/
def Instr.writesReg (r : Reg) : Instr → Bool
  | .ret => true
  | .ldImm x _ => r == x
  | .addImm x _ => r == x
  | .ldReg x _ => r == x
  | .or x _ => r == x
  | .and x _ => r == x
  | .xor x _ => r == x
  | .add x _ => r == x || r == flagReg
  | .sub x _ => r == x || r == flagReg
  | .shr x _ => r == x || r == flagReg
  | .subn x _ => r == x || r == flagReg
  | .shl x _ => r == x || r == flagReg
  | .rand x _ => r == x
  | .draw _ _ _ => r == flagReg
  | .ldVxDt x => r == x
  | .regLoad x => decide (r.toNat ≤ x.toNat)
  | _ => false

/-- The bytes an instruction reads or writes as data: base and count (20_memory.md R54). Every instruction
not named accesses none. -/
def Instr.access (s : State) : Instr → Option (Nat × Nat)
  | .draw _ _ n => some (s.base, n.toNat)
  | .bcd _ => some (s.base, 3)
  | .regDump x => some (s.base, x.toNat + 1)
  | .regLoad x => some (s.base, x.toNat + 1)
  | _ => none

namespace Machine

/-! ### Pixels (44_display.md R191, R192) -/

/-- The sprite has a set pixel at row `r`, column `c` of the grid: byte `r - y0`, bit `7 - (c - x0)`. -/
def spritePixel (sprite : List Byte) (x0 y0 r c : Nat) : Bool :=
  decide (y0 ≤ r) && decide (x0 ≤ c) && decide (c < x0 + 8) &&
    (sprite[r - y0]?.getD 0).getLsbD (7 - (c - x0))

/-- The bytes a DRAW of height `n` reads: I, I+1, ... (44 R191). -/
def State.spriteBytes (s : State) (n : Nibble) : List Byte :=
  (List.range n.toNat).map fun j => s.readByte (s.base + j)

/-! ### The invariant -/

end Machine

/-- An instruction's own check fails in this state with this reason (60_exceptions.md R220). -/
def Instr.ownFault (i : Instr) (s : State) (r : Reason) : Bool :=
  match r with
  | .outOfBounds =>
    match i.access s with
    | some (base, n) => !accessOk base n
    | none => false
  | .stackOverflow =>
    match i with
    | .call _ => decide (Config.stackDepth ≤ s.stk.length)
    | _ => false
  | .stackUnderflow =>
    match i with
    | .ret => s.stk.isEmpty
    | _ => false
  | .romTooLarge => false
  | .unknownOpcode _ => false

namespace Machine

/-- The state right after a reset whose ROM was refused, but for the key latch (70_reset_and_hazards.md
R260, R263). -/
def State.freshButKeys (s : State) : Bool :=
  s.mem.isEmpty && s.v == Vector.replicate 16 0 && s.i == 0 && s.pc == 0x200 && s.dt == 0 && s.st == 0 &&
    s.stk.isEmpty && s.fb == Vector.replicate 32 0

/-- What a status that is not Running says of the rest of the state: PC still holds the address of the
instruction that stopped the executor, and that instruction accounts for the stop (10_state.md R30,
60_exceptions.md R220, R224, 40_executor.md R108). -/
def State.stopExplained (s : State) : Bool :=
  match s.status with
  | .running => true
  | .waitingKey x =>
    match s.fetchDecode with
    | .ok i => i == .waitKey x
    | .error _ => false
  | .halted =>
    match s.fetchDecode with
    | .ok i => i == .stop
    | .error _ => false
  | .faulted .romTooLarge => s.freshButKeys
  | .faulted r =>
    match s.fetchDecode with
    | .ok i => i.ownFault s r
    | .error r' => r == r'

/-- The machine's invariant: the memory is in canonical form and inside the address space, the stack is
bounded (10 R28), the halt word is no word of another instruction (30 R87), PC and every return address are
within the bounds of 40 R105, and every stop is accounted for. -/
abbrev State.Inv (s : State) : Prop :=
  Memory.wf s.params.font s.mem = true ∧ s.stk.length ≤ Config.stackDepth ∧ s.params.wf = true ∧
    s.pc.toNat ≤ 0x10FE ∧ (∀ f ∈ s.stk, f.ret.toNat ≤ 4096) ∧ s.stopExplained = true

/-- The executor is running and no other transaction is scheduled. -/
abbrev State.ready (s : State) : Prop := s.status = .running ∧ s.inputs = []

/-- The executor is in a final status (40_executor.md R107). -/
abbrev State.final (s : State) : Prop := s.status = .halted ∨ ∃ r, s.status = .faulted r

end Machine

end Sys2Proof
end

