-- ==== Sys2Proof/Certificates/Slice0/Obligations.lean ====
section
/-! DEFINITION. The statements for the provers. Each docstring names the rules of spec/ it formalises; the
entries of OBLIGATIONS.json carry the ids. -/

open Sys2Proof Sys2Proof.Machine

/-! ### Encoding (30_encoding.md) -/

/-- Words written out from the opcode map of 30 R84, one a family, decode to the instruction the map gives.
The spec's own choice: 92 D2. -/
def Obligations.WrittenOutWordsDecode : Prop :=
  decode none 0x00E0 = .ok .clear ∧ decode none 0x00EE = .ok .ret ∧
  decode none 0x1204 = .ok (.jp 0x204) ∧ decode none 0x2210 = .ok (.call 0x210) ∧
  decode none 0x4205 = .ok (.sneImm 2 5) ∧ decode none 0x5120 = .ok (.seReg 1 2) ∧
  decode none 0x6A9C = .ok (.ldImm 0xA 0x9C) ∧ decode none 0x830E = .ok (.shl 3 0) ∧
  decode none 0xA300 = .ok (.ldI 0x300) ∧ decode none 0xD235 = .ok (.draw 2 3 5) ∧
  decode none 0xE09E = .ok (.skipIfPressed 0) ∧ decode none 0xF265 = .ok (.regLoad 2) ∧
  decode none 0x5123 = .error (.unknown 0x5123) ∧ decode (some 0x0000) 0x0000 = .ok .stop

/-- Every well-formed instruction is what its encoding decodes to, whatever its operands (30 R81, R84, R87).
-/
def Obligations.DecodeOfEncodeIsTheInstruction : Prop :=
  ∀ (h : Option Word) (i : Instr), i.wf h = true → decode h (encode h i) = .ok i

/-- A word that decodes is the encoding of what it decodes to: no bit of a word is lost (30 R81, R83; that
SHR and SHL keep their Y field is the model's choice, log entry 19). -/
def Obligations.EncodeOfDecodeIsTheWord : Prop :=
  ∀ (h : Option Word) (w : Word) (i : Instr), decode h w = .ok i → encode h i = w

/-- 30 R88: for every word, the rows of the opcode table that match it (and STOP's, if it is the halt word)
are none when it decodes to nothing, and otherwise exactly one, that of the decoded instruction. -/
def Obligations.DecodingIsTotalAndUnambiguous : Prop :=
  ∀ (h : Option Word) (w : Word), haltWordOk h = true →
    ((opcodeRows.filter fun r => r.matches w).map OpcodeRow.mnemonic) ++ (if h = some w then ["STOP"] else []) =
      match decode h w with
      | .ok i => [i.mnemonic]
      | .error _ => []

/-- The words that are unknown are exactly the illegal words of 30 R85, less the halt word (R87). The spec's
own choices: 92 D2, D3, D4. -/
def Obligations.UnknownWordsAreTheIllegalOnes : Prop :=
  ∀ (h : Option Word) (w : Word),
    decode h w = .error (.unknown w) ↔ illegalWord w = true ∧ h ≠ some w

/-- 30 R83 for SHR and SHL: any Y selects the instruction and the result does not depend on it. The spec's
own choice: 92 D18. -/
def Obligations.ShiftsIgnoreTheYField : Prop :=
  ∀ (h : Option Word) (x y y' : Reg) (s : State),
    decode h (0x8#4 ++ x ++ y ++ 0x6#4) = .ok (.shr x y) ∧ exec (.shr x y) s = exec (.shr x y') s ∧
    decode h (0x8#4 ++ x ++ y ++ 0xE#4) = .ok (.shl x y) ∧ exec (.shl x y) s = exec (.shl x y') s

/-! ### Fetch and step (40_executor.md) -/

/-- 20 R58, R52: the fetch raises OutOfBounds exactly when PC is 4095 or more, and otherwise reads the two bytes
at PC and PC + 1, even or odd, big-endian, PC not reduced. -/
def Obligations.FetchIsBoundedAndBigEndian : Prop :=
  ∀ s : State,
    (4095 ≤ s.pc.toNat → s.fetch = .error .outOfBounds) ∧
    (s.pc.toNat ≤ 4094 → ∃ w, s.fetch = .ok w ∧
      w.toNat = (s.readByte s.pc.toNat).toNat * 256 + (s.readByte (s.pc.toNat + 1)).toNat)

/-- 40 R101: a `step()` in Running runs exactly this: OutOfBounds when PC is 4095 or more, else the big-endian word
at PC is decoded, an unknown word raises UnknownOpcode with the word, and any other word's Execute arm gives
the answer. A fault changes the status alone. -/
def Obligations.RunOneFetchesDecodesAndExecutes : Prop :=
  ∀ s : State, s.ready → step s =
    if 4095 ≤ s.pc.toNat then .next { s with status := .faulted .outOfBounds }
    else
      let w := wordOfBytes (s.readByte s.pc.toNat) (s.readByte (s.pc.toNat + 1))
      match decode s.params.haltWord w with
      | .ok i => exec i s
      | .error _ => .next { s with status := .faulted (.unknownOpcode w) }

/-- When the two bytes at PC decode to a well-formed instruction, the host's `step()` is its Execute arm
(40 R100, R101). -/
def Obligations.StepRunsTheDecodedInstruction : Prop :=
  ∀ (s : State) (i : Instr), s.ready → s.pc.toNat ≤ 4094 → i.wf s.params.haltWord = true →
    decode s.params.haltWord (wordOfBytes (s.readByte s.pc.toNat) (s.readByte (s.pc.toNat + 1))) = .ok i →
    step s = exec i s

/-- The same for a `step()` that the schedule of transactions holds: it runs the instruction with the rest
of the schedule kept (40 R101; the schedule is the model's, log entry 1). The spec's own choice: 92 D25. -/
def Obligations.ScheduledStepRunsTheDecodedInstruction : Prop :=
  ∀ (s : State) (i : Instr) (rest : List Event), s.status = .running → s.inputs = .step :: rest →
    s.pc.toNat ≤ 4094 → i.wf s.params.haltWord = true →
    decode s.params.haltWord (wordOfBytes (s.readByte s.pc.toNat) (s.readByte (s.pc.toNat + 1))) = .ok i →
    step s = exec i { s with inputs := rest }

/-- 40 R102 and 60 R224 in a step: a PC of 4095 or more makes the step raise OutOfBounds, which changes the
status alone; the next `step()` changes nothing. The spec's own choices: 92 D9, D11. -/
def Obligations.StepAtEndOfMemoryFaults : Prop :=
  ∀ s : State, s.ready → 4095 ≤ s.pc.toNat →
    step s = .next { s with status := .faulted .outOfBounds } ∧
    step { s with status := .faulted .outOfBounds } = .next { s with status := .faulted .outOfBounds }

/-- 40 R104: an unknown word makes the step record the whole word in the status and change nothing else, and
every later `step()` returns that fault with nothing changed. The spec's own choices: 92 D3, D4, D11. -/
def Obligations.StepOfUnknownWordFaults : Prop :=
  ∀ (s : State) (w : Word), s.ready → s.pc.toNat ≤ 4094 →
    w = wordOfBytes (s.readByte s.pc.toNat) (s.readByte (s.pc.toNat + 1)) →
    illegalWord w = true → s.params.haltWord ≠ some w →
    ∃ t, step s = .next t ∧ t.status = .faulted (.unknownOpcode w) ∧ s.changesOnly t [.status] ∧
      t.result = .faulted (.unknownOpcode w) ∧ step t = .next t

/-- 60 R226: in Faulted a `step()` returns that fault, raises nothing new and changes nothing; no
transaction but a reset leaves Faulted; and a reset with a ROM that fits makes the executor run again. -/
def Obligations.FaultedIsLeftByResetAlone : Prop :=
  ∀ (s : State) (r : Reason), s.status = .faulted r →
    (s.inputs = [] → step s = .next s) ∧ s.result = .faulted r ∧
    (∀ t, step s = .next t → (∀ rom rest, s.inputs ≠ .reset rom :: rest) → t.status = .faulted r) ∧
    (∀ rom rest, s.inputs = .reset rom :: rest → rom.length ≤ 3584 →
      ∃ t, step s = .next t ∧ t.status = .running)

/-- 40 R107: in Halted and Faulted a `step()` returns that status and changes nothing, and no transaction
but a reset changes anything except the key latch, ticks included. The spec's own choices: 92 D24, D33, D37.
-/
def Obligations.FinalStatesAreFrozenUntilReset : Prop :=
  ∀ s : State, s.final →
    (s.inputs = [] → step s = .next s) ∧ (s.status = .halted → s.result = .halted) ∧
    (∀ r, s.status = .faulted r → s.result = .faulted r) ∧
    (∀ t, step s = .next t → (∀ rom rest, s.inputs ≠ .reset rom :: rest) → s.changesOnly t [.key, .inputs])

/-- 40 R109, 45 R211: while WaitingKey nothing but a key press or a reset lifts the wait; ticks go on, a
release only updates the latch; with nothing scheduled but calls of `step()`, which block, the machine is
stuck in the hold (that the stop is a fault of the model's is log entry 2). The spec's own choices: 92 D21,
D32. -/
def Obligations.KeyWaitHoldsUntilPressOrReset : Prop :=
  ∀ (s : State) (x : Reg), s.status = .waitingKey x →
    ((∀ e ∈ s.inputs, e = .step) → step s = .fault .keyHold) ∧
    (∀ t, step s = .next t →
      (∃ k rest, s.schedule = .setKeyPressed k true :: rest) ∨ (∃ rom rest, s.schedule = .reset rom :: rest) ∨
      s.changesOnly t [.key, .dt, .st, .inputs])

/-! ### Events (45_timers_input.md, 60_exceptions.md, 70_reset_and_hazards.md) -/

/-- 45 R210: a press while waiting sets the latch, writes the key code to the register, advances PC by 2 and
makes the executor run, held key or not; also with calls of `step()` pending before it, which the schedule
skips. The spec's own choice: 92 D21. -/
def Obligations.KeyPressResolvesTheWait : Prop :=
  ∀ (s : State) (x k : BitVec 4) (rest : List Event), s.status = .waitingKey x →
    s.schedule = .setKeyPressed k.toNat true :: rest →
    ∃ t, step s = .next t ∧ t.getKey k = true ∧ (∀ j, j ≠ k → t.getKey j = s.getKey j) ∧
      (t.getV x).toNat = k.toNat ∧ s.keepsRegsBut t [x] ∧ t.pc = s.pc + 2 ∧ t.status = .running ∧
      t.result = .continue ∧ t.inputs = rest ∧ s.changesOnly t [.key, .v, .pc, .status, .inputs]

/-- 45 R212: every other key event with a code of 0 to 15 writes that latch bit and nothing else, and a code
above 15 is refused. The spec's own choices: 92 D21, D33. -/
def Obligations.OtherKeyEventsWriteOnlyTheLatch : Prop :=
  ∀ (s : State) (code : Nat) (p : Bool) (rest : List Event), s.schedule = .setKeyPressed code p :: rest →
    (15 < code → step s = .refused (.keyCodeOutOfRange code)) ∧
    (code ≤ 15 → (p = false ∨ ∀ x, s.status ≠ .waitingKey x) →
      ∃ t, step s = .next t ∧ t.getKey (BitVec.ofNat 4 code) = p ∧
        (∀ j, j ≠ BitVec.ofNat 4 code → t.getKey j = s.getKey j) ∧ t.inputs = rest ∧
        s.changesOnly t [.key, .inputs])

/-- 60 R240: a tick decrements each timer that is not zero, both at once, and does nothing in Halted and
Faulted. The spec's own choices: 92 D24, D25. -/
def Obligations.TickCountsBothTimersDown : Prop :=
  ∀ (s : State) (rest : List Event), s.schedule = .tick :: rest →
    ∃ t, step s = .next t ∧ t.inputs = rest ∧
      (s.final → s.changesOnly t [.inputs]) ∧
      (¬ s.final → t.dt.toNat = s.dt.toNat - 1 ∧ t.st.toNat = s.st.toNat - 1 ∧
        s.changesOnly t [.dt, .st, .inputs])

/-- 10 R39, 70 R260, R261: a reset at any time, also in a wait or after a fault, leaves every piece of state
at the value of the table of R39 (the model's own draw count goes on); a call of `step()` pending in a wait
returns the result of the new status (R262). The spec's own choices: 92 D5, D22, D26, D32. -/
def Obligations.ResetLeavesTheStatedValues : Prop :=
  ∀ (s : State) (rom : List Byte) (rest : List Event), s.schedule = .reset rom :: rest →
    ∃ t, step s = .next t ∧ (∀ r, t.getV r = 0) ∧ t.i = 0 ∧ t.pc = 0x200 ∧ t.dt = 0 ∧ t.st = 0 ∧ t.stk = [] ∧
      (∀ r c, t.fb.cell r c = false) ∧ (∀ k, t.getKey k = false) ∧
      s.changesOnly t [.mem, .v, .i, .pc, .dt, .st, .stk, .fb, .key, .status, .inputs] ∧ t.inputs = rest ∧
      t.status = (if 3584 < rom.length then .faulted .romTooLarge else .running) ∧
      t.result = (if 3584 < rom.length then .faulted .romTooLarge else .continue) ∧
      (∀ a, a < 4096 → t.readByte a =
        if 0x050 ≤ a ∧ a < 0x0A0 then s.params.font[a - 0x050]?.getD 0
        else if 0x200 ≤ a ∧ rom.length ≤ 3584 then rom[a - 0x200]?.getD 0 else 0)

/-- 70 R261: outside a reset no transaction ends Halted or Faulted, and a reset leaves no trace of the run before
it: whatever two states of one core were, the same reset makes them equal, with PC at 0x200 (but for the
model's own fields, the schedule and the count of the random draws, log entries 1 and 5). -/
def Obligations.ResetLeavesNoTrace : Prop :=
  (∀ s t : State, s.final → step s = .next t → (∀ rom rest, s.inputs ≠ .reset rom :: rest) →
    t.status = s.status) ∧
  (∀ (s u : State) (rom : List Byte) (rest rest' : List Event), s.params = u.params →
    s.schedule = .reset rom :: rest → u.schedule = .reset rom :: rest' →
    ∃ t, step s = .next t ∧ t.pc = 0x200 ∧
      step u = .next { t with draws := u.draws, inputs := rest' })

/-- 45 R213: a reset during a key wait ends the wait and leaves the registers at their reset values; a key
press after it writes no general register; a wait begins at a WAIT_KEY alone, and outside a wait no key event
writes anything but the latch, so no later key event writes the register of the wait cancelled. -/
def Obligations.ResetCancelsTheKeyWait : Prop :=
  (∀ (s : State) (x : Reg) (rom : List Byte) (k : BitVec 4) (rest : List Event),
    s.status = .waitingKey x → s.schedule = .reset rom :: .setKeyPressed k.toNat true :: rest →
    ∃ t u, step s = .next t ∧ (∀ y, t.status ≠ .waitingKey y) ∧ (∀ r, t.getV r = 0) ∧ t.i = 0 ∧ t.pc = 0x200 ∧
      t.dt = 0 ∧ t.st = 0 ∧ t.stk = [] ∧ (∀ j, t.getKey j = false) ∧
      step t = .next u ∧ t.changesOnly u [.key, .inputs]) ∧
  (∀ (s t : State) (y : Reg), step s = .next t → t.status = .waitingKey y →
    s.status = .waitingKey y ∨ s.status = .running ∧ s.fetchDecode = .ok (.waitKey y)) ∧
  (∀ (s t : State) (code : Nat) (p : Bool) (rest : List Event), (∀ y, s.status ≠ .waitingKey y) →
    s.inputs = .setKeyPressed code p :: rest → step s = .next t → s.changesOnly t [.key, .inputs])

/-- 10 R39 for the model's reset state, which holds no ROM: every piece has the value of the table. The
spec's own choices: 92 D5, D22. -/
def Obligations.ResetStateHoldsTheStatedValues : Prop :=
  (∀ r, State.reset.getV r = 0) ∧ State.reset.i = 0 ∧ State.reset.pc = 0x200 ∧ State.reset.dt = 0 ∧
  State.reset.st = 0 ∧ State.reset.stk = [] ∧ (∀ r c, State.reset.fb.cell r c = false) ∧
  (∀ k, State.reset.getKey k = false) ∧ State.reset.status = .running ∧
  (∀ a, a < 4096 → State.reset.readByte a =
    if 0x050 ≤ a ∧ a < 0x0A0 then Config.defaultFont[a - 0x050]?.getD 0 else 0)

/-- 70 R263: a ROM of at most 3584 bytes is copied to 0x200 and on and nothing else changes; a longer one
copies nothing, is reported, and leaves status Faulted(RomTooLarge). The spec's own choice: 92 D26. -/
def Obligations.LoadCopiesTheRomOrReportsIt : Prop :=
  ∀ (s : State) (b : List Byte),
    (b.length ≤ 3584 → (s.load b).1 = .ok ∧ s.changesOnly (s.load b).2 [.mem] ∧
      (∀ k, k < b.length → (s.load b).2.readByte (0x200 + k) = b[k]?.getD 0) ∧
      s.keepsBytesOutside (s.load b).2 0x200 b.length) ∧
    (3584 < b.length → (s.load b).1 = .romTooLarge ∧ (s.load b).2.status = .faulted .romTooLarge ∧
      s.changesOnly (s.load b).2 [.status])

/-- 70 R264: a load outside a reset is refused; 30 R87: a core with a halt word that is no illegal word is
refused when it is built. The spec's own choices: 92 D2, D27. -/
def Obligations.LoadOutsideResetIsRefused : Prop :=
  (∀ (s : State) (b : List Byte) (rest : List Event), s.schedule = .load b :: rest →
    step s = .refused .loadOutsideReset) ∧
  (∀ (p : Config.Params) (w : Word) (rom : List Byte), p.haltWord = some w → illegalWord w = false →
    State.construct p rom = .refused (.haltWordNotIllegal w))

/-- 44 R195: taking the snapshot changes no state, and the snapshot is FB as it stands. The spec's own
choice: 92 D36. -/
def Obligations.SnapshotChangesNothing : Prop :=
  ∀ (s : State) (rest : List Event), s.schedule = .framebuffer :: rest →
    ∃ t, step s = .next t ∧ s.changesOnly t [.inputs] ∧ t.inputs = rest ∧ t.framebuffer = s.fb

/-- Each step performs exactly the first transaction that can take place, 20 R64: with nothing in the inputs
the host's `step()`; outside a key wait the event at the head, on the state that keeps the rest; in a key
wait the first event that is no call of `step()`, since those block (40 R109). A next state has used up just
that. The schedule is the model's (log entries 1 and 2). The spec's own choices: 92 D25, D32. -/
def Obligations.StepConsumesOneTransaction : Prop :=
  ∀ s : State,
    (s.inputs = [] → step s = s.stepCall) ∧
    (∀ e rest, (∀ x, s.status ≠ .waitingKey x) → s.inputs = e :: rest →
      step s = State.perform { s with inputs := rest } e) ∧
    (∀ (x : Reg) (n : Nat) (e : Event) (rest : List Event), s.status = .waitingKey x → e ≠ .step →
      s.inputs = List.replicate n .step ++ e :: rest → step s = State.perform { s with inputs := rest } e) ∧
    (∀ t, step s = .next t →
      ((∀ x, s.status ≠ .waitingKey x) → t.inputs = s.inputs.tail) ∧
      (∀ x, s.status = .waitingKey x → ∃ (n : Nat) (e : Event),
        s.inputs = List.replicate n .step ++ e :: t.inputs ∧ e ≠ .step))

/-! ### Control flow (41_control_flow.md) -/

/-- JP and JP V0 set PC to the exact target and nothing else (41 R122, R129). The spec's own choice: 92 D9.
-/
def Obligations.JumpsGoToTheirTargets : Prop :=
  ∀ (s : State) (nnn : Addr12),
    (∃ t, exec (.jp nnn) s = .next t ∧ t.pc.toNat = nnn.toNat ∧ s.changesOnly t [.pc]) ∧
    (∃ t, exec (.jpV0 nnn) s = .next t ∧ t.pc.toNat = nnn.toNat + (s.getV 0).toNat ∧ s.changesOnly t [.pc])

/-- The six skips advance PC by 4 when their condition holds and by 2 otherwise, and write nothing but PC
(41 R124 to R128, 45 R200, R201). The spec's own choice: 92 D7. -/
def Obligations.SkipsAdvanceByFourOrTwo : Prop :=
  ∀ (s : State) (x y : Reg) (nn : Byte),
    (∃ t, exec (.seImm x nn) s = .next t ∧ s.changesOnly t [.pc] ∧
      t.pc = if s.getV x = nn then s.pc + 4 else s.pc + 2) ∧
    (∃ t, exec (.sneImm x nn) s = .next t ∧ s.changesOnly t [.pc] ∧
      t.pc = if s.getV x = nn then s.pc + 2 else s.pc + 4) ∧
    (∃ t, exec (.seReg x y) s = .next t ∧ s.changesOnly t [.pc] ∧
      t.pc = if s.getV x = s.getV y then s.pc + 4 else s.pc + 2) ∧
    (∃ t, exec (.sneReg x y) s = .next t ∧ s.changesOnly t [.pc] ∧
      t.pc = if s.getV x = s.getV y then s.pc + 2 else s.pc + 4) ∧
    (∃ t, exec (.skipIfPressed x) s = .next t ∧ s.changesOnly t [.pc] ∧
      t.pc = if s.getKey (BitVec.ofNat 4 ((s.getV x).toNat % 16)) = true then s.pc + 4 else s.pc + 2) ∧
    (∃ t, exec (.skipIfNotPressed x) s = .next t ∧ s.changesOnly t [.pc] ∧
      t.pc = if s.getKey (BitVec.ofNat 4 ((s.getV x).toNat % 16)) = true then s.pc + 2 else s.pc + 4)

/-- CALL with room on the stack pushes one frame, a copy of V, I and the address after the call, and jumps;
with 16 frames it raises StackOverflow and nothing but the status changes (41 R123, 10 R34). The spec's own
choices: 92 D15, D16. -/
def Obligations.CallPushesAFrameOrOverflows : Prop :=
  ∀ (s : State) (nnn : Addr12),
    (s.stk.length < 16 → ∃ t, exec (.call nnn) s = .next t ∧
      t.stk = { v := s.v, i := s.i, ret := s.pc + 2 } :: s.stk ∧ t.pc.toNat = nnn.toNat ∧
      s.changesOnly t [.stk, .pc]) ∧
    (16 ≤ s.stk.length → exec (.call nnn) s = .next { s with status := .faulted .stackOverflow })

/-- RET restores V0..VF, I and PC from the top frame and pops it; on an empty stack it raises StackUnderflow
and nothing but the status changes (41 R121). The spec's own choice: 92 D15. -/
def Obligations.RetRestoresTheFrameOrUnderflows : Prop :=
  ∀ s : State,
    (∀ f rest, s.stk = f :: rest → ∃ t, exec .ret s = .next t ∧ t.v = f.v ∧ t.i = f.i ∧ t.pc = f.ret ∧
      t.stk = rest ∧ s.changesOnly t [.v, .i, .pc, .stk]) ∧
    (s.stk = [] → exec .ret s = .next { s with status := .faulted .stackUnderflow })

/-- 10 R35: a frame is a copy: an instruction adds one frame (CALL), drops the top one (RET) or leaves STK as it
is; it never changes a frame that stays. -/
def Obligations.FramesOnTheStackAreNeverChanged : Prop :=
  ∀ (i : Instr) (s t : State), exec i s = .next t →
    t.stk = s.stk ∨ (i = .ret ∧ t.stk = s.stk.tail) ∨
      (∃ nnn, i = .call nnn ∧ t.stk = { v := s.v, i := s.i, ret := s.pc + 2 } :: s.stk)

/-- 41 R130: a CALL to an address that holds RET, followed by that RET, leaves V, I and STK as they were and
PC at the CALL's address + 2; and whatever else has changed in between, a RET on the stack the CALL left
restores V and I. The spec's own choice: 92 D15. -/
def Obligations.CallThenReturnRoundTrips : Prop :=
  ∀ (s : State) (nnn : Addr12), s.ready → s.stk.length < 16 → s.fetchDecode = .ok (.call nnn) →
    ∃ t, step s = .next t ∧
      (nnn.toNat ≤ 4094 → wordOfBytes (s.readByte nnn.toNat) (s.readByte (nnn.toNat + 1)) = 0x00EE →
        ∃ u, step t = .next u ∧ u.v = s.v ∧ u.i = s.i ∧ u.stk = s.stk ∧ u.pc = s.pc + 2) ∧
      (∀ w : State, w.stk = t.stk →
        ∃ u, exec .ret w = .next u ∧ u.v = s.v ∧ u.i = s.i ∧ u.stk = s.stk ∧ u.pc = s.pc + 2)

/-! ### Arithmetic (42_alu.md) -/

/-- The loads, 7XNN and the logic operations write V[X] alone, VF being written only as X, and advance PC by
2 (42 R140 to R145, 45 R202). The spec's own choices: 92 D13, D14. -/
def Obligations.LoadsAndLogicWriteOnlyTheirRegister : Prop :=
  ∀ (s : State) (x y : Reg) (nn : Byte),
    (∃ t, exec (.ldImm x nn) s = .next t ∧ t.getV x = nn ∧ s.keepsRegsBut t [x] ∧ t.pc = s.pc + 2 ∧
      s.changesOnly t [.v, .pc]) ∧
    (∃ t, exec (.addImm x nn) s = .next t ∧ (t.getV x).toNat = ((s.getV x).toNat + nn.toNat) % 256 ∧
      s.keepsRegsBut t [x] ∧ t.pc = s.pc + 2 ∧ s.changesOnly t [.v, .pc]) ∧
    (∃ t, exec (.ldReg x y) s = .next t ∧ t.getV x = s.getV y ∧ s.keepsRegsBut t [x] ∧ t.pc = s.pc + 2 ∧
      s.changesOnly t [.v, .pc]) ∧
    (∃ t, exec (.or x y) s = .next t ∧
      (∀ b, (t.getV x).getLsbD b = ((s.getV x).getLsbD b || (s.getV y).getLsbD b)) ∧
      s.keepsRegsBut t [x] ∧ t.pc = s.pc + 2 ∧ s.changesOnly t [.v, .pc]) ∧
    (∃ t, exec (.and x y) s = .next t ∧
      (∀ b, (t.getV x).getLsbD b = ((s.getV x).getLsbD b && (s.getV y).getLsbD b)) ∧
      s.keepsRegsBut t [x] ∧ t.pc = s.pc + 2 ∧ s.changesOnly t [.v, .pc]) ∧
    (∃ t, exec (.xor x y) s = .next t ∧
      (∀ b, (t.getV x).getLsbD b = ((s.getV x).getLsbD b ^^ (s.getV y).getLsbD b)) ∧
      s.keepsRegsBut t [x] ∧ t.pc = s.pc + 2 ∧ s.changesOnly t [.v, .pc]) ∧
    (∃ t, exec (.ldVxDt x) s = .next t ∧ t.getV x = s.dt ∧ s.keepsRegsBut t [x] ∧ t.pc = s.pc + 2 ∧
      s.changesOnly t [.v, .pc])

/-- 42 R146: ADD stores the sum modulo 256 and then the carry in VF, the flag winning when X is VF.
That the flag is written last is the spec's own choice 92 D12 (log entry 10). -/
def Obligations.AddStoresSumAndCarry : Prop :=
  ∀ (s : State) (x y : Reg), ∃ t, exec (.add x y) s = .next t ∧
    (x ≠ 0xF → (t.getV x).toNat = ((s.getV x).toNat + (s.getV y).toNat) % 256) ∧
    (t.getV 0xF).toNat = (if 256 ≤ (s.getV x).toNat + (s.getV y).toNat then 1 else 0) ∧
    s.keepsRegsBut t [x, 0xF] ∧ t.pc = s.pc + 2 ∧ s.changesOnly t [.v, .pc]

/-- 42 R147, R149: SUB and SUBN store the difference modulo 256 and then 1 in VF exactly when there is no
borrow, the flag winning when X is VF. The spec's own choice: 92 D12. -/
def Obligations.SubtractionsStoreDifferenceAndNoBorrow : Prop :=
  ∀ (s : State) (x y : Reg),
    (∃ t, exec (.sub x y) s = .next t ∧
      (x ≠ 0xF → ((t.getV x).toNat : Int) = (((s.getV x).toNat : Int) - (s.getV y).toNat) % 256) ∧
      (t.getV 0xF).toNat = (if (s.getV y).toNat ≤ (s.getV x).toNat then 1 else 0) ∧
      s.keepsRegsBut t [x, 0xF] ∧ t.pc = s.pc + 2 ∧ s.changesOnly t [.v, .pc]) ∧
    (∃ t, exec (.subn x y) s = .next t ∧
      (x ≠ 0xF → ((t.getV x).toNat : Int) = (((s.getV y).toNat : Int) - (s.getV x).toNat) % 256) ∧
      (t.getV 0xF).toNat = (if (s.getV x).toNat ≤ (s.getV y).toNat then 1 else 0) ∧
      s.keepsRegsBut t [x, 0xF] ∧ t.pc = s.pc + 2 ∧ s.changesOnly t [.v, .pc])

/-- 42 R148, R150: SHR and SHL shift V[X] by one, whatever Y is, and put the bit shifted out in VF, the flag
winning when X is VF. The spec's own choice: 92 D12. -/
def Obligations.ShiftsStoreTheBitShiftedOut : Prop :=
  ∀ (s : State) (x y : Reg),
    (∃ t, exec (.shr x y) s = .next t ∧ (x ≠ 0xF → (t.getV x).toNat = (s.getV x).toNat / 2) ∧
      (t.getV 0xF).toNat = (s.getV x).toNat % 2 ∧
      s.keepsRegsBut t [x, 0xF] ∧ t.pc = s.pc + 2 ∧ s.changesOnly t [.v, .pc]) ∧
    (∃ t, exec (.shl x y) s = .next t ∧ (x ≠ 0xF → (t.getV x).toNat = (2 * (s.getV x).toNat) % 256) ∧
      (t.getV 0xF).toNat = (s.getV x).toNat / 128 ∧
      s.keepsRegsBut t [x, 0xF] ∧ t.pc = s.pc + 2 ∧ s.changesOnly t [.v, .pc])

/-- 42 R160: RAND takes one draw, whatever the mask, and stores it masked; bits outside the mask are 0. It
holds for every value of the free byte (log entry 5). The spec's own choice: 92 D28. -/
def Obligations.RandStoresAMaskedDraw : Prop :=
  ∀ (s : State) (x : Reg) (nn : Byte), ∃ t, exec (.rand x nn) s = .next t ∧
    (∀ b, (t.getV x).getLsbD b = ((Config.randomByte s.draws).getLsbD b && nn.getLsbD b)) ∧
    s.keepsRegsBut t [x] ∧ t.draws = s.draws + 1 ∧ t.pc = s.pc + 2 ∧ s.changesOnly t [.v, .pc, .draws]

/-! ### Index register and memory (43_index_memory.md, 20_memory.md) -/

/-- LD I, ADD I and LD F set I to the stated number and write nothing else, VF included (43 R170 to R172).
The spec's own choices: 92 D6, D10. -/
def Obligations.IndexInstructionsSetI : Prop :=
  ∀ (s : State) (x : Reg) (nnn : Addr12),
    (∃ t, exec (.ldI nnn) s = .next t ∧ t.i.toNat = nnn.toNat ∧ t.pc = s.pc + 2 ∧ s.changesOnly t [.i, .pc]) ∧
    (∃ t, exec (.addI x) s = .next t ∧ t.i.toNat = (s.i.toNat + (s.getV x).toNat) % 65536 ∧
      t.pc = s.pc + 2 ∧ s.changesOnly t [.i, .pc]) ∧
    (∃ t, exec (.ldF x) s = .next t ∧ t.i.toNat = 0x050 + 5 * ((s.getV x).toNat % 16) ∧
      t.pc = s.pc + 2 ∧ s.changesOnly t [.i, .pc])

/-- 43 R173: BCD stores the three decimal digits at I, I + 1, I + 2 and no other byte; when I + 2 is 4096 or
more it raises OutOfBounds and nothing but the status changes. The spec's own choices: 92 D11, D38. -/
def Obligations.BcdStoresTheDigits : Prop :=
  ∀ (s : State) (x : Reg),
    (s.base + 2 < 4096 → ∃ t, exec (.bcd x) s = .next t ∧
      (t.readByte s.base).toNat = (s.getV x).toNat / 100 ∧
      (t.readByte (s.base + 1)).toNat = (s.getV x).toNat / 10 % 10 ∧
      (t.readByte (s.base + 2)).toNat = (s.getV x).toNat % 10 ∧
      s.keepsBytesOutside t s.base 3 ∧ t.pc = s.pc + 2 ∧ s.changesOnly t [.mem, .pc]) ∧
    (4096 ≤ s.base + 2 → exec (.bcd x) s = .next { s with status := .faulted .outOfBounds })

/-- 43 R174: REG_DUMP stores V0 to VX at I and on and no other byte; when I + X is 4096 or more it raises
OutOfBounds and nothing but the status changes, the spec's own choice 92 D11 (log entry 14). -/
def Obligations.RegDumpStoresTheRegisters : Prop :=
  ∀ (s : State) (x : Reg),
    (s.base + x.toNat < 4096 → ∃ t, exec (.regDump x) s = .next t ∧
      (∀ r : Reg, r.toNat ≤ x.toNat → t.readByte (s.base + r.toNat) = s.getV r) ∧
      s.keepsBytesOutside t s.base (x.toNat + 1) ∧ t.pc = s.pc + 2 ∧ s.changesOnly t [.mem, .pc]) ∧
    (4096 ≤ s.base + x.toNat → exec (.regDump x) s = .next { s with status := .faulted .outOfBounds })

/-- 43 R175: REG_LOAD loads V0 to VX from I and on and no other register; when I + X is 4096 or more it
raises OutOfBounds and nothing but the status changes, the spec's own choice 92 D11 (log entry 14). -/
def Obligations.RegLoadLoadsTheRegisters : Prop :=
  ∀ (s : State) (x : Reg),
    (s.base + x.toNat < 4096 → ∃ t, exec (.regLoad x) s = .next t ∧
      (∀ r : Reg, t.getV r = if r.toNat ≤ x.toNat then s.readByte (s.base + r.toNat) else s.getV r) ∧
      t.pc = s.pc + 2 ∧ s.changesOnly t [.v, .pc]) ∧
    (4096 ≤ s.base + x.toNat → exec (.regLoad x) s = .next { s with status := .faulted .outOfBounds })

/-- REG_DUMP then REG_LOAD: from any later state with the same I and the same bytes, the load gives V0 to VX
their dumped values back (43 R174, R175). -/
def Obligations.DumpThenLoadRoundTrips : Prop :=
  ∀ (s t u : State) (x : Reg), s.base + x.toNat < 4096 → exec (.regDump x) s = .next t →
    u.i = t.i → (∀ a, u.readByte a = t.readByte a) →
    ∃ w, exec (.regLoad x) u = .next w ∧ ∀ r : Reg, r.toNat ≤ x.toNat → w.getV r = s.getV r

/-- 20 R62: what a store leaves, a load of the same bytes returns, and every other byte reads as before. -/
def Obligations.LoadReturnsTheLatestStore : Prop :=
  ∀ (s t : State) (base : Nat) (bs : List Byte), s.storeBytes base bs = .ok t →
    t.loadBytes base bs.length = .ok bs ∧ s.keepsBytesOutside t base bs.length ∧ s.changesOnly t [.mem]

/-- 20 R65: the fetch after a store sees the stored bytes: storing a word's bytes at PC makes it the word
fetched. The spec's own choice: 92 D31. -/
def Obligations.FetchSeesTheStoredWord : Prop :=
  ∀ (s t : State) (w : Word), s.storeBytes s.pc.toNat [wordHi w, wordLo w] = .ok t → t.fetch = .ok w

/-- The host's placing of a word makes it the next word fetched, from every state, and changes no register but
PC, which stays where a word can be fetched from it and becomes 0x200 where none can (20 R52, R58; the placing
is the model's, log entry 20). -/
def Obligations.PlacedWordIsFetched : Prop :=
  ∀ (s : State) (nbits w : Nat), (s.withFetchWord nbits w).fetch = .ok (tableWord nbits w) ∧
    (s.withFetchWord nbits w).ready ∧ s.changesOnly (s.withFetchWord nbits w) [.mem, .pc, .status, .inputs] ∧
    (s.withFetchWord nbits w).pc = (if s.pc.toNat ≤ 4094 then s.pc else 0x200)

/-! ### Framebuffer (44_display.md) -/

/-- 44 R190: CLEAR makes every cell unlit and writes nothing else but PC, VF included. -/
def Obligations.ClearUnlightsEveryCell : Prop :=
  ∀ s : State, ∃ t, exec .clear s = .next t ∧ (∀ r c, t.fb.cell r c = false) ∧ t.pc = s.pc + 2 ∧
    s.changesOnly t [.fb, .pc]

/-- 44 R191 to R194: DRAW XORs the sprite's pixels onto the grid, clipped at its edges, and VF becomes 1
exactly when a lit cell is hit, from the coordinates and the bytes as they were before; when N > 0 and I + N
- 1 is 4096 or more it raises OutOfBounds and nothing but the status changes. The spec's own choices: 92
D11, D12, D17, D18, D19, D20. -/
def Obligations.DrawXorsTheClippedSprite : Prop :=
  ∀ (s : State) (x y : Reg) (n : Nibble),
    (n.toNat = 0 ∨ s.base + n.toNat - 1 < 4096 → ∃ t, exec (.draw x y n) s = .next t ∧
      (∀ r c, r < 32 → c < 64 → t.fb.cell r c =
        (s.fb.cell r c ^^ spritePixel (s.spriteBytes n) ((s.getV x).toNat % 64) ((s.getV y).toNat % 32) r c)) ∧
      ((t.getV 0xF = 1 ∧ ∃ r c, r < 32 ∧ c < 64 ∧ s.fb.cell r c = true ∧
          spritePixel (s.spriteBytes n) ((s.getV x).toNat % 64) ((s.getV y).toNat % 32) r c = true) ∨
        (t.getV 0xF = 0 ∧ ∀ r c, r < 32 → c < 64 → s.fb.cell r c = true →
          spritePixel (s.spriteBytes n) ((s.getV x).toNat % 64) ((s.getV y).toNat % 32) r c = false)) ∧
      s.keepsRegsBut t [0xF] ∧ t.pc = s.pc + 2 ∧ s.changesOnly t [.fb, .v, .pc]) ∧
    (0 < n.toNat → 4096 ≤ s.base + n.toNat - 1 →
      exec (.draw x y n) s = .next { s with status := .faulted .outOfBounds })

/-- 44 R196 as R191 gives it: the same sprite drawn twice at the same origin restores FB, and the second
draw sets VF to 1 exactly when a set bit of the sprite, not clipped, fell on a cell that was unlit before
the first; so on a grid unlit under the sprite exactly when it has an unclipped set bit, as R196 says (for a
lit cell R196 and R191 differ: log entry 22). The spec's own choice: 92 D17. -/
def Obligations.DrawingTwiceRestores : Prop :=
  ∀ (s t : State) (x y : Reg) (n : Nibble), (n.toNat = 0 ∨ s.base + n.toNat - 1 < 4096) →
    exec (.draw x y n) s = .next t →
    (t.getV x).toNat % 64 = (s.getV x).toNat % 64 → (t.getV y).toNat % 32 = (s.getV y).toNat % 32 →
    ∃ u, exec (.draw x y n) t = .next u ∧ u.fb = s.fb ∧
      (u.getV 0xF = 1 ↔ ∃ r c, r < 32 ∧ c < 64 ∧ s.fb.cell r c = false ∧
        spritePixel (s.spriteBytes n) ((s.getV x).toNat % 64) ((s.getV y).toNat % 32) r c = true) ∧
      ((∀ r c, r < 32 → c < 64 →
          spritePixel (s.spriteBytes n) ((s.getV x).toNat % 64) ((s.getV y).toNat % 32) r c = true →
          s.fb.cell r c = false) →
        (u.getV 0xF = 1 ↔ ∃ r c, r < 32 ∧ c < 64 ∧
          spritePixel (s.spriteBytes n) ((s.getV x).toNat % 64) ((s.getV y).toNat % 32) r c = true))

/-! ### Timers, key wait, stop -/

/-- LD DT and LD ST set the one timer; FX0A parks the executor and STOP halts it, PC unchanged (45 R203 to
R205, 40 R108). The spec's own choices: 92 D2, D21, D32, D39. -/
def Obligations.TimersWaitAndStopWriteTheirOneField : Prop :=
  ∀ (s : State) (x : Reg),
    (∃ t, exec (.ldDtVx x) s = .next t ∧ t.dt = s.getV x ∧ t.pc = s.pc + 2 ∧ s.changesOnly t [.dt, .pc]) ∧
    (∃ t, exec (.ldStVx x) s = .next t ∧ t.st = s.getV x ∧ t.pc = s.pc + 2 ∧ s.changesOnly t [.st, .pc]) ∧
    (∃ t, exec (.waitKey x) s = .next t ∧ t.status = .waitingKey x ∧ t.result = .continue ∧
      s.changesOnly t [.status]) ∧
    (∃ t, exec .stop s = .next t ∧ t.status = .halted ∧ t.result = .halted ∧ s.changesOnly t [.status])

/-! ### Whole-machine rules -/

/-- No instruction stops the machine: each answers a next state in every state, a fault being a next state
whose status records it (60 R224, 40 R111). The spec's own choice: 92 D11. -/
def Obligations.EveryInstructionAnswersANextState : Prop :=
  ∀ (i : Instr) (s : State), ∃ t, exec i s = .next t

/-- 40 R111, 60 R224: an instruction either completes, writing only the pieces its rule names, or raises a
fault that changes the status alone. The spec's own choice: 92 D11. -/
def Obligations.InstructionsArePrecise : Prop :=
  ∀ (i : Instr) (s t : State), exec i s = .next t →
    (∃ r, t = { s with status := .faulted r }) ∨ s.changesOnly t i.writes

/-- 60 R220, R227 (3): the faults an instruction itself raises are those of the table, each exactly under
its condition. The spec's own choices: 92 D8, D23, D34. -/
def Obligations.InstructionsRaiseTheirOwnFaults : Prop :=
  ∀ (i : Instr) (s : State) (r : Reason), s.status = .running →
    ((∃ t, exec i s = .next t ∧ t.status = .faulted r) ↔ i.ownFault s r = true)

/-- 10 R22: an instruction changes no general register but those the list of writers gives it. -/
def Obligations.OnlyTheListedWritersChangeARegister : Prop :=
  ∀ (i : Instr) (s t : State) (r : Reg), exec i s = .next t → i.writesReg r = false → t.getV r = s.getV r

/-- 20 R50, R54: an instruction changes no byte of memory outside the bytes of its own access, and only BCD
and REG_DUMP change any. -/
def Obligations.OnlyStoresChangeMemory : Prop :=
  ∀ (i : Instr) (s t : State) (a : Nat), exec i s = .next t → t.readByte a ≠ s.readByte a →
    ∃ base n, i.access s = some (base, n) ∧ base ≤ a ∧ a < base + n ∧ a < 4096 ∧
      ∃ x, i = .bcd x ∨ i = .regDump x

/-- 10 R37: the key latch is seen by the two key skips alone: for every other instruction, changing the latch
first or last is the same. -/
def Obligations.OnlyKeySkipsReadTheLatch : Prop :=
  ∀ (i : Instr) (s t : State) (k : Vector Bool 16),
    (∀ x, i ≠ .skipIfPressed x) → (∀ x, i ≠ .skipIfNotPressed x) →
    exec i s = .next t → exec i { s with key := k } = .next { t with key := k }

/-- 20 R50, 10 R28, R31: memory is reached by DRAW, BCD, REG_DUMP and REG_LOAD alone, the framebuffer by CLEAR and
DRAW alone, the call stack by CALL and RET alone: for every other instruction, changing that piece first or
last is the same. -/
def Obligations.OnlyTheirInstructionsReachMemoryFramebufferAndStack : Prop :=
  ∀ (i : Instr) (s t : State), exec i s = .next t →
    (∀ m : Memory, i.access s = none → exec i { s with mem := m } = .next { t with mem := m }) ∧
    (∀ fb : FrameBuffer, i ≠ .clear → (∀ x y n, i ≠ .draw x y n) →
      exec i { s with fb := fb } = .next { t with fb := fb }) ∧
    (∀ stk : List Frame, i ≠ .ret → (∀ nnn, i ≠ .call nnn) →
      exec i { s with stk := stk } = .next { t with stk := stk })

/-- 10 R27: no instruction reads ST: for every instruction that does not write it, changing ST first or last
is the same, and LD ST gives the same state whatever ST was. The spec's own choice: 92 D39. -/
def Obligations.NoInstructionReadsTheSoundTimer : Prop :=
  (∀ (i : Instr) (s t : State) (b : Byte), (∀ x, i ≠ .ldStVx x) →
    exec i s = .next t → exec i { s with st := b } = .next { t with st := b }) ∧
  (∀ (x : Reg) (s : State) (b : Byte), exec (.ldStVx x) { s with st := b } = exec (.ldStVx x) s)

/-- The parameters HALT_WORD and FONT_DATA are fixed for one machine (00 R8): no step changes them. -/
def Obligations.NoStepChangesTheParameters : Prop :=
  ∀ s t : State, step s = .next t → t.params = s.params

/-- Every state the reset transaction and construction leave satisfies the invariant: the canonical memory, the
bounded stack, the legal halt word, the bound on PC, and a status that the rest accounts for. -/
def Obligations.InvariantHoldsAtReset : Prop :=
  State.reset.Inv ∧
  (∀ (p : Config.Params) (rom : List Byte) (t : State), State.construct p rom = .next t → t.Inv)

/-- Every step, whatever its transaction, keeps the invariant (10 R28, R30; 20 R50; 30 R87; 40 R105; 60 R220,
R224): the memory stays in canonical form inside 4096 bytes, the stack within 16 frames, PC within
0x10FE, and every wait, halt and fault is accounted for by the instruction at PC. -/
def Obligations.EveryStepKeepsTheInvariant : Prop :=
  ∀ s t : State, s.Inv → step s = .next t → t.Inv
end

