-- ==== Sys2Proof/Laws/Decode.lean ====
section
/-! SUPPORT. The fields of a word put together from its fields, format by format (30_encoding.md R80, R81), and
the two bytes of a word. -/

namespace Sys2Proof

/-! ### Bits of a word put together -/

theorem getLsbD_nnn (c : BitVec 4) (nnn : Addr12) (j : Nat) :
    BitVec.getLsbD (c ++ nnn : Word) j = if j < 12 then nnn.getLsbD j else c.getLsbD (j - 12) := by
  have := BitVec.getLsbD_append (x := c) (y := nnn) (i := j)
  simpa [Bool.cond_eq_ite] using this

theorem getLsbD_xnn (c : BitVec 4) (x : Reg) (nn : Byte) (j : Nat) :
    BitVec.getLsbD (c ++ x ++ nn : Word) j =
      if j < 8 then nn.getLsbD j else if j < 12 then x.getLsbD (j - 8) else c.getLsbD (j - 12) := by
  have h1 := BitVec.getLsbD_append (x := c ++ x) (y := nn) (i := j)
  have h2 := BitVec.getLsbD_append (x := c) (y := x) (i := j - 8)
  refine h1.trans ?_
  rw [h2]
  simp only [show j - 8 < 4 ↔ j < 12 by omega, show j - 8 - 4 = j - 12 by omega]

theorem getLsbD_xyn (c : BitVec 4) (x y : Reg) (n : Nibble) (j : Nat) :
    BitVec.getLsbD (c ++ x ++ y ++ n : Word) j =
      if j < 4 then n.getLsbD j else if j < 8 then y.getLsbD (j - 4)
      else if j < 12 then x.getLsbD (j - 8) else c.getLsbD (j - 12) := by
  have h1 := BitVec.getLsbD_append (x := c ++ x ++ y) (y := n) (i := j)
  have h2 := BitVec.getLsbD_append (x := c ++ x) (y := y) (i := j - 4)
  have h3 := BitVec.getLsbD_append (x := c) (y := x) (i := j - 4 - 4)
  refine h1.trans ?_
  rw [h2, h3]
  simp only [show j - 4 < 4 ↔ j < 8 by omega, show j - 4 - 4 = j - 8 by omega,
    show j - 8 < 4 ↔ j < 12 by omega, show j - 8 - 4 = j - 12 by omega]

/-! ### Format NNN -/

section
variable (c : BitVec 4) (nnn : Addr12)

@[simp] theorem fieldClass_nnn : fieldClass (c ++ nnn) = c := by
  ext i hi
  simp [fieldClass, getLsbD_nnn, ← BitVec.getLsbD_eq_getElem, hi]

@[simp] theorem fieldNNN_nnn : fieldNNN (c ++ nnn) = nnn := by
  ext i hi
  simp [fieldNNN, getLsbD_nnn, ← BitVec.getLsbD_eq_getElem, hi]
end

/-! ### Format XNN and XSUB -/

section
variable (c : BitVec 4) (x : Reg) (nn : Byte)

@[simp] theorem fieldClass_xnn : fieldClass (c ++ x ++ nn) = c := by
  ext i hi
  simp [fieldClass, getLsbD_xnn, ← BitVec.getLsbD_eq_getElem, hi, show ¬ 12 + i < 8 by omega]

@[simp] theorem fieldX_xnn : fieldX (c ++ x ++ nn) = x := by
  ext i hi
  simp [fieldX, getLsbD_xnn, ← BitVec.getLsbD_eq_getElem, hi, show 8 + i < 12 by omega]

@[simp] theorem fieldNN_xnn : fieldNN (c ++ x ++ nn) = nn := by
  ext i hi
  simp [fieldNN, getLsbD_xnn, ← BitVec.getLsbD_eq_getElem, hi]
end

/-! ### Format XYN -/

section
variable (c : BitVec 4) (x y : Reg) (n : Nibble)

@[simp] theorem fieldClass_xyn : fieldClass (c ++ x ++ y ++ n) = c := by
  ext i hi
  simp [fieldClass, getLsbD_xyn, ← BitVec.getLsbD_eq_getElem, hi, show ¬ 12 + i < 4 by omega,
    show ¬ 12 + i < 8 by omega]

@[simp] theorem fieldX_xyn : fieldX (c ++ x ++ y ++ n) = x := by
  ext i hi
  simp [fieldX, getLsbD_xyn, ← BitVec.getLsbD_eq_getElem, hi, show ¬ 8 + i < 4 by omega, show 8 + i < 12 by omega]

@[simp] theorem fieldY_xyn : fieldY (c ++ x ++ y ++ n) = y := by
  ext i hi
  simp [fieldY, getLsbD_xyn, ← BitVec.getLsbD_eq_getElem, hi, show 4 + i < 8 by omega]

@[simp] theorem fieldN_xyn : fieldN (c ++ x ++ y ++ n) = n := by
  ext i hi
  simp [fieldN, getLsbD_xyn, ← BitVec.getLsbD_eq_getElem, hi]
end

/-! ### A word is put together from its fields -/

theorem word_eq_nnn (w : Word) : w = fieldClass w ++ fieldNNN w := by
  apply BitVec.eq_of_getLsbD_eq
  intro j hj
  rw [getLsbD_nnn]
  by_cases h : j < 12
  · simp [fieldNNN, h]
  · simp [fieldClass, h, show j - 12 < 4 by omega, show 12 + (j - 12) = j by omega]

theorem word_eq_xnn (w : Word) : w = fieldClass w ++ fieldX w ++ fieldNN w := by
  apply BitVec.eq_of_getLsbD_eq
  intro j hj
  rw [getLsbD_xnn]
  by_cases h : j < 8
  · simp [fieldNN, h]
  by_cases h' : j < 12
  · simp [fieldX, h, h', show j - 8 < 4 by omega, show 8 + (j - 8) = j by omega]
  · simp [fieldClass, h, h', show j - 12 < 4 by omega, show 12 + (j - 12) = j by omega]

theorem word_eq_xyn (w : Word) : w = fieldClass w ++ fieldX w ++ fieldY w ++ fieldN w := by
  apply BitVec.eq_of_getLsbD_eq
  intro j hj
  rw [getLsbD_xyn]
  by_cases h0 : j < 4
  · simp [fieldN, h0]
  by_cases h : j < 8
  · simp [fieldY, h0, h, show j - 4 < 4 by omega, show 4 + (j - 4) = j by omega]
  by_cases h' : j < 12
  · simp [fieldX, h0, h, h', show j - 8 < 4 by omega, show 8 + (j - 8) = j by omega]
  · simp [fieldClass, h0, h, h', show j - 12 < 4 by omega, show 12 + (j - 12) = j by omega]

/-! ### The two bytes of a word (20_memory.md R52) -/

theorem wordOfBytes_toNat (hi lo : Byte) : (wordOfBytes hi lo).toNat = hi.toNat * 256 + lo.toNat := by
  have h : (wordOfBytes hi lo).toNat = hi.toNat <<< 8 ||| lo.toNat := BitVec.toNat_append hi lo
  rw [h, ← Nat.shiftLeft_add_eq_or_of_lt lo.isLt, Nat.shiftLeft_eq]

@[simp] theorem wordOfBytes_hi_lo (w : Word) : wordOfBytes (wordHi w) (wordLo w) = w := by
  apply BitVec.eq_of_toNat_eq
  have := w.isLt
  rw [wordOfBytes_toNat]
  simp [wordHi, wordLo, Nat.shiftRight_eq_div_pow]
  omega

/-- What decoding a word can answer: an instruction of a fixed row, STOP for the halt word, or unknown. -/
theorem decode_cases (h : Option Word) (w : Word) :
    (∃ i, decodeRow w = some i ∧ decode h w = .ok i) ∨
      (decodeRow w = none ∧ h = some w ∧ decode h w = .ok .stop) ∨
      (decodeRow w = none ∧ h ≠ some w ∧ decode h w = .error (.unknown w)) := by
  unfold decode
  cases decodeRow w with
  | some i => simp
  | none => by_cases hh : h = some w <;> simp [hh]

end Sys2Proof
end

