-- ==== Sys2Proof/Laws/State.lean ====
section
/-! SUPPORT. One lemma per field per update of the state, and what an update does to a register, a key and a
byte as read: no later proof unfolds a record update. -/

namespace Sys2Proof.Machine

variable (s : State)

/-! ### `State.setV` -/

@[simp] theorem State.setV_mem (x : Reg) (b : Byte) : (s.setV x b).mem = s.mem := rfl
@[simp] theorem State.setV_v (x : Reg) (b : Byte) : (s.setV x b).v = s.v.set x.toNat b := rfl
@[simp] theorem State.setV_i (x : Reg) (b : Byte) : (s.setV x b).i = s.i := rfl
@[simp] theorem State.setV_pc (x : Reg) (b : Byte) : (s.setV x b).pc = s.pc := rfl
@[simp] theorem State.setV_dt (x : Reg) (b : Byte) : (s.setV x b).dt = s.dt := rfl
@[simp] theorem State.setV_st (x : Reg) (b : Byte) : (s.setV x b).st = s.st := rfl
@[simp] theorem State.setV_stk (x : Reg) (b : Byte) : (s.setV x b).stk = s.stk := rfl
@[simp] theorem State.setV_fb (x : Reg) (b : Byte) : (s.setV x b).fb = s.fb := rfl
@[simp] theorem State.setV_key (x : Reg) (b : Byte) : (s.setV x b).key = s.key := rfl
@[simp] theorem State.setV_status (x : Reg) (b : Byte) : (s.setV x b).status = s.status := rfl
@[simp] theorem State.setV_params (x : Reg) (b : Byte) : (s.setV x b).params = s.params := rfl
@[simp] theorem State.setV_draws (x : Reg) (b : Byte) : (s.setV x b).draws = s.draws := rfl
@[simp] theorem State.setV_inputs (x : Reg) (b : Byte) : (s.setV x b).inputs = s.inputs := rfl

/-! ### `State.setKey` -/

@[simp] theorem State.setKey_mem (k : BitVec 4) (p : Bool) : (s.setKey k p).mem = s.mem := rfl
@[simp] theorem State.setKey_v (k : BitVec 4) (p : Bool) : (s.setKey k p).v = s.v := rfl
@[simp] theorem State.setKey_i (k : BitVec 4) (p : Bool) : (s.setKey k p).i = s.i := rfl
@[simp] theorem State.setKey_pc (k : BitVec 4) (p : Bool) : (s.setKey k p).pc = s.pc := rfl
@[simp] theorem State.setKey_dt (k : BitVec 4) (p : Bool) : (s.setKey k p).dt = s.dt := rfl
@[simp] theorem State.setKey_st (k : BitVec 4) (p : Bool) : (s.setKey k p).st = s.st := rfl
@[simp] theorem State.setKey_stk (k : BitVec 4) (p : Bool) : (s.setKey k p).stk = s.stk := rfl
@[simp] theorem State.setKey_fb (k : BitVec 4) (p : Bool) : (s.setKey k p).fb = s.fb := rfl
@[simp] theorem State.setKey_key (k : BitVec 4) (p : Bool) : (s.setKey k p).key = s.key.set k.toNat p := rfl
@[simp] theorem State.setKey_status (k : BitVec 4) (p : Bool) : (s.setKey k p).status = s.status := rfl
@[simp] theorem State.setKey_params (k : BitVec 4) (p : Bool) : (s.setKey k p).params = s.params := rfl
@[simp] theorem State.setKey_draws (k : BitVec 4) (p : Bool) : (s.setKey k p).draws = s.draws := rfl
@[simp] theorem State.setKey_inputs (k : BitVec 4) (p : Bool) : (s.setKey k p).inputs = s.inputs := rfl

/-! ### `State.advance` -/

@[simp] theorem State.advance_mem : s.advance.mem = s.mem := rfl
@[simp] theorem State.advance_v : s.advance.v = s.v := rfl
@[simp] theorem State.advance_i : s.advance.i = s.i := rfl
@[simp] theorem State.advance_pc : s.advance.pc = s.pc + 2 := rfl
@[simp] theorem State.advance_dt : s.advance.dt = s.dt := rfl
@[simp] theorem State.advance_st : s.advance.st = s.st := rfl
@[simp] theorem State.advance_stk : s.advance.stk = s.stk := rfl
@[simp] theorem State.advance_fb : s.advance.fb = s.fb := rfl
@[simp] theorem State.advance_key : s.advance.key = s.key := rfl
@[simp] theorem State.advance_status : s.advance.status = s.status := rfl
@[simp] theorem State.advance_params : s.advance.params = s.params := rfl
@[simp] theorem State.advance_draws : s.advance.draws = s.draws := rfl
@[simp] theorem State.advance_inputs : s.advance.inputs = s.inputs := rfl

/-! ### `State.skipIf` -/

@[simp] theorem State.skipIf_mem (c : Bool) : (s.skipIf c).mem = s.mem := rfl
@[simp] theorem State.skipIf_v (c : Bool) : (s.skipIf c).v = s.v := rfl
@[simp] theorem State.skipIf_i (c : Bool) : (s.skipIf c).i = s.i := rfl
@[simp] theorem State.skipIf_pc (c : Bool) : (s.skipIf c).pc = if c then s.pc + 4 else s.pc + 2 := rfl
@[simp] theorem State.skipIf_dt (c : Bool) : (s.skipIf c).dt = s.dt := rfl
@[simp] theorem State.skipIf_st (c : Bool) : (s.skipIf c).st = s.st := rfl
@[simp] theorem State.skipIf_stk (c : Bool) : (s.skipIf c).stk = s.stk := rfl
@[simp] theorem State.skipIf_fb (c : Bool) : (s.skipIf c).fb = s.fb := rfl
@[simp] theorem State.skipIf_key (c : Bool) : (s.skipIf c).key = s.key := rfl
@[simp] theorem State.skipIf_status (c : Bool) : (s.skipIf c).status = s.status := rfl
@[simp] theorem State.skipIf_params (c : Bool) : (s.skipIf c).params = s.params := rfl
@[simp] theorem State.skipIf_draws (c : Bool) : (s.skipIf c).draws = s.draws := rfl
@[simp] theorem State.skipIf_inputs (c : Bool) : (s.skipIf c).inputs = s.inputs := rfl

/-! ### `State.raise` -/

@[simp] theorem State.raise_mem (r : Reason) : (s.raise r).mem = s.mem := rfl
@[simp] theorem State.raise_v (r : Reason) : (s.raise r).v = s.v := rfl
@[simp] theorem State.raise_i (r : Reason) : (s.raise r).i = s.i := rfl
@[simp] theorem State.raise_pc (r : Reason) : (s.raise r).pc = s.pc := rfl
@[simp] theorem State.raise_dt (r : Reason) : (s.raise r).dt = s.dt := rfl
@[simp] theorem State.raise_st (r : Reason) : (s.raise r).st = s.st := rfl
@[simp] theorem State.raise_stk (r : Reason) : (s.raise r).stk = s.stk := rfl
@[simp] theorem State.raise_fb (r : Reason) : (s.raise r).fb = s.fb := rfl
@[simp] theorem State.raise_key (r : Reason) : (s.raise r).key = s.key := rfl
@[simp] theorem State.raise_status (r : Reason) : (s.raise r).status = .faulted r := rfl
@[simp] theorem State.raise_params (r : Reason) : (s.raise r).params = s.params := rfl
@[simp] theorem State.raise_draws (r : Reason) : (s.raise r).draws = s.draws := rfl
@[simp] theorem State.raise_inputs (r : Reason) : (s.raise r).inputs = s.inputs := rfl

/-! ### `State.countDown` -/

@[simp] theorem State.countDown_mem : s.countDown.mem = s.mem := rfl
@[simp] theorem State.countDown_v : s.countDown.v = s.v := rfl
@[simp] theorem State.countDown_i : s.countDown.i = s.i := rfl
@[simp] theorem State.countDown_pc : s.countDown.pc = s.pc := rfl
@[simp] theorem State.countDown_dt : s.countDown.dt = decrement s.dt := rfl
@[simp] theorem State.countDown_st : s.countDown.st = decrement s.st := rfl
@[simp] theorem State.countDown_stk : s.countDown.stk = s.stk := rfl
@[simp] theorem State.countDown_fb : s.countDown.fb = s.fb := rfl
@[simp] theorem State.countDown_key : s.countDown.key = s.key := rfl
@[simp] theorem State.countDown_status : s.countDown.status = s.status := rfl
@[simp] theorem State.countDown_params : s.countDown.params = s.params := rfl
@[simp] theorem State.countDown_draws : s.countDown.draws = s.draws := rfl
@[simp] theorem State.countDown_inputs : s.countDown.inputs = s.inputs := rfl

/-! ### `State.clear` -/

@[simp] theorem State.clear_mem : s.clear.mem = [] := rfl
@[simp] theorem State.clear_v : s.clear.v = Vector.replicate 16 0 := rfl
@[simp] theorem State.clear_i : s.clear.i = 0 := rfl
@[simp] theorem State.clear_pc : s.clear.pc = 0x200 := rfl
@[simp] theorem State.clear_dt : s.clear.dt = 0 := rfl
@[simp] theorem State.clear_st : s.clear.st = 0 := rfl
@[simp] theorem State.clear_stk : s.clear.stk = [] := rfl
@[simp] theorem State.clear_fb : s.clear.fb = Vector.replicate 32 0 := rfl
@[simp] theorem State.clear_key : s.clear.key = Vector.replicate 16 false := rfl
@[simp] theorem State.clear_status : s.clear.status = .running := rfl
@[simp] theorem State.clear_params : s.clear.params = s.params := rfl
@[simp] theorem State.clear_draws : s.clear.draws = s.draws := rfl
@[simp] theorem State.clear_inputs : s.clear.inputs = s.inputs := rfl

/-! ### `State.draw` -/

@[simp] theorem State.draw_byte : s.draw.1 = Config.randomByte s.draws := rfl
@[simp] theorem State.draw_mem : s.draw.2.mem = s.mem := rfl
@[simp] theorem State.draw_v : s.draw.2.v = s.v := rfl
@[simp] theorem State.draw_i : s.draw.2.i = s.i := rfl
@[simp] theorem State.draw_pc : s.draw.2.pc = s.pc := rfl
@[simp] theorem State.draw_dt : s.draw.2.dt = s.dt := rfl
@[simp] theorem State.draw_st : s.draw.2.st = s.st := rfl
@[simp] theorem State.draw_stk : s.draw.2.stk = s.stk := rfl
@[simp] theorem State.draw_fb : s.draw.2.fb = s.fb := rfl
@[simp] theorem State.draw_key : s.draw.2.key = s.key := rfl
@[simp] theorem State.draw_status : s.draw.2.status = s.status := rfl
@[simp] theorem State.draw_params : s.draw.2.params = s.params := rfl
@[simp] theorem State.draw_draws : s.draw.2.draws = s.draws + 1 := rfl
@[simp] theorem State.draw_inputs : s.draw.2.inputs = s.inputs := rfl

/-! ### Registers, keys and bytes through an update -/

theorem State.getV_eq {s t : State} (h : t.v = s.v) (r : Reg) : t.getV r = s.getV r := by
  simp [State.getV, h]

theorem State.getKey_eq {s t : State} (h : t.key = s.key) (k : BitVec 4) : t.getKey k = s.getKey k := by
  simp [State.getKey, h]

theorem State.readByte_eq {s t : State} (hm : t.mem = s.mem) (hp : t.params = s.params) (a : Nat) :
    t.readByte a = s.readByte a := by
  simp [State.readByte, hm, hp]

@[simp] theorem State.getV_setV (x r : Reg) (b : Byte) :
    (s.setV x b).getV r = if r = x then b else s.getV r := by
  simp only [State.getV, State.setV, Vector.getElem_set, BitVec.toNat_inj, eq_comm]

@[simp] theorem State.getKey_setKey (k j : BitVec 4) (p : Bool) :
    (s.setKey k p).getKey j = if j = k then p else s.getKey j := by
  simp only [State.getKey, State.setKey, Vector.getElem_set, BitVec.toNat_inj, eq_comm]

@[simp] theorem State.getKey_setV (x : Reg) (b : Byte) (j : BitVec 4) : (s.setV x b).getKey j = s.getKey j := rfl
@[simp] theorem State.readByte_setV (x : Reg) (b : Byte) (a : Nat) : (s.setV x b).readByte a = s.readByte a := rfl
@[simp] theorem State.getV_setKey (k : BitVec 4) (p : Bool) (r : Reg) : (s.setKey k p).getV r = s.getV r := rfl
@[simp] theorem State.readByte_setKey (k : BitVec 4) (p : Bool) (a : Nat) : (s.setKey k p).readByte a = s.readByte a := rfl
@[simp] theorem State.getV_advance (r : Reg) : s.advance.getV r = s.getV r := rfl
@[simp] theorem State.getKey_advance (j : BitVec 4) : s.advance.getKey j = s.getKey j := rfl
@[simp] theorem State.readByte_advance (a : Nat) : s.advance.readByte a = s.readByte a := rfl
@[simp] theorem State.getV_skipIf (c : Bool) (r : Reg) : (s.skipIf c).getV r = s.getV r := rfl
@[simp] theorem State.getKey_skipIf (c : Bool) (j : BitVec 4) : (s.skipIf c).getKey j = s.getKey j := rfl
@[simp] theorem State.readByte_skipIf (c : Bool) (a : Nat) : (s.skipIf c).readByte a = s.readByte a := rfl
@[simp] theorem State.getV_raise (c : Reason) (r : Reg) : (s.raise c).getV r = s.getV r := rfl
@[simp] theorem State.getKey_raise (r : Reason) (j : BitVec 4) : (s.raise r).getKey j = s.getKey j := rfl
@[simp] theorem State.readByte_raise (r : Reason) (a : Nat) : (s.raise r).readByte a = s.readByte a := rfl
@[simp] theorem State.getV_countDown (r : Reg) : s.countDown.getV r = s.getV r := rfl
@[simp] theorem State.getKey_countDown (j : BitVec 4) : s.countDown.getKey j = s.getKey j := rfl
@[simp] theorem State.readByte_countDown (a : Nat) : s.countDown.readByte a = s.readByte a := rfl
@[simp] theorem State.getV_draw (r : Reg) : s.draw.2.getV r = s.getV r := rfl
@[simp] theorem State.getKey_draw (j : BitVec 4) : s.draw.2.getKey j = s.getKey j := rfl
@[simp] theorem State.readByte_draw (a : Nat) : s.draw.2.readByte a = s.readByte a := rfl

@[simp] theorem State.getV_clear (r : Reg) : s.clear.getV r = 0 := by
  simp [State.getV, State.clear]

@[simp] theorem State.getKey_clear (k : BitVec 4) : s.clear.getKey k = false := by
  simp [State.getKey, State.clear]

@[simp] theorem State.readByte_clear (a : Nat) :
    s.clear.readByte a = Memory.background s.params.font a := rfl

/-! ### `State.setVs` -/

@[simp] theorem State.setVs_mem (k : Nat) (bs : List Byte) : (s.setVs k bs).mem = s.mem := by
  induction bs generalizing s k with
  | nil => rfl
  | cons b bs ih => simp [State.setVs, ih]

@[simp] theorem State.setVs_i (k : Nat) (bs : List Byte) : (s.setVs k bs).i = s.i := by
  induction bs generalizing s k with
  | nil => rfl
  | cons b bs ih => simp [State.setVs, ih]

@[simp] theorem State.setVs_pc (k : Nat) (bs : List Byte) : (s.setVs k bs).pc = s.pc := by
  induction bs generalizing s k with
  | nil => rfl
  | cons b bs ih => simp [State.setVs, ih]

@[simp] theorem State.setVs_dt (k : Nat) (bs : List Byte) : (s.setVs k bs).dt = s.dt := by
  induction bs generalizing s k with
  | nil => rfl
  | cons b bs ih => simp [State.setVs, ih]

@[simp] theorem State.setVs_st (k : Nat) (bs : List Byte) : (s.setVs k bs).st = s.st := by
  induction bs generalizing s k with
  | nil => rfl
  | cons b bs ih => simp [State.setVs, ih]

@[simp] theorem State.setVs_stk (k : Nat) (bs : List Byte) : (s.setVs k bs).stk = s.stk := by
  induction bs generalizing s k with
  | nil => rfl
  | cons b bs ih => simp [State.setVs, ih]

@[simp] theorem State.setVs_fb (k : Nat) (bs : List Byte) : (s.setVs k bs).fb = s.fb := by
  induction bs generalizing s k with
  | nil => rfl
  | cons b bs ih => simp [State.setVs, ih]

@[simp] theorem State.setVs_key (k : Nat) (bs : List Byte) : (s.setVs k bs).key = s.key := by
  induction bs generalizing s k with
  | nil => rfl
  | cons b bs ih => simp [State.setVs, ih]

@[simp] theorem State.setVs_status (k : Nat) (bs : List Byte) : (s.setVs k bs).status = s.status := by
  induction bs generalizing s k with
  | nil => rfl
  | cons b bs ih => simp [State.setVs, ih]

@[simp] theorem State.setVs_params (k : Nat) (bs : List Byte) : (s.setVs k bs).params = s.params := by
  induction bs generalizing s k with
  | nil => rfl
  | cons b bs ih => simp [State.setVs, ih]

@[simp] theorem State.setVs_draws (k : Nat) (bs : List Byte) : (s.setVs k bs).draws = s.draws := by
  induction bs generalizing s k with
  | nil => rfl
  | cons b bs ih => simp [State.setVs, ih]

@[simp] theorem State.setVs_inputs (k : Nat) (bs : List Byte) : (s.setVs k bs).inputs = s.inputs := by
  induction bs generalizing s k with
  | nil => rfl
  | cons b bs ih => simp [State.setVs, ih]

/-- What a run of register writes leaves: register `r` holds its byte when it is among those written. -/
theorem State.getV_setVs (k : Nat) (bs : List Byte) (h : k + bs.length ≤ 16) (r : Reg) :
    (s.setVs k bs).getV r =
      if k ≤ r.toNat ∧ r.toNat < k + bs.length then bs[r.toNat - k]?.getD 0 else s.getV r := by
  induction bs generalizing s k with
  | nil => simp [State.setVs]
  | cons b bs ih =>
    simp only [List.length_cons] at h
    have hk : (BitVec.ofNat 4 k).toNat = k := by simp; omega
    rw [State.setVs, ih _ _ (by omega), State.getV_setV]
    have hr : r = BitVec.ofNat 4 k ↔ r.toNat = k := by rw [← BitVec.toNat_inj, hk]
    rcases Nat.lt_trichotomy r.toNat k with h1 | h1 | h1
    · simp [hr, show ¬ (k + 1 ≤ r.toNat) by omega, show ¬ k ≤ r.toNat by omega, show r.toNat ≠ k by omega]
    · simp [hr, h1]
    · obtain ⟨d, hd⟩ : ∃ d, r.toNat - k = d + 1 := ⟨r.toNat - k - 1, by omega⟩
      have hd' : r.toNat - (k + 1) = d := by omega
      by_cases h2 : r.toNat < k + 1 + bs.length
      · simp [hd, hd', h2, show k + 1 ≤ r.toNat by omega, show k ≤ r.toNat by omega,
          show r.toNat < k + (bs.length + 1) by omega]
      · simp [hr, h2, show r.toNat ≠ k by omega, show ¬ r.toNat < k + (bs.length + 1) by omega]

end Sys2Proof.Machine
end

