-- ==== Sys2Proof/Laws/Memory.lean ====
section
/-! SUPPORT. The laws of memory: a read after a write, and that every memory operation keeps the canonical
form. -/

namespace Sys2Proof.Machine

variable {font : Vector Byte Config.fontSize}

/-! ### Reads -/

/-- What reset leaves without a ROM: the font at 0x050..0x09F, zero elsewhere (10 R39). -/
theorem Memory.background_eq (a : Nat) :
    Memory.background font a = if 0x050 ≤ a ∧ a < 0x0A0 then font[a - 0x050]?.getD 0 else 0 := by
  unfold Memory.background
  by_cases h : 0x050 ≤ a
  · by_cases h2 : a < 0x0A0
    · simp [h, h2]
    · rw [Vector.getElem?_eq_none (by simp only [Config.fontBase, Config.fontSize]; omega)]
      simp [h, h2]
  · simp [h]

theorem Memory.read_erase (m : Memory) (a a' : Nat) :
    Memory.read font (m.erase a) a' = if a' = a then Memory.background font a' else Memory.read font m a' := by
  induction m with
  | nil => simp [Memory.erase, Memory.read]
  | cons c rest ih =>
    obtain ⟨b, w⟩ := c
    by_cases h : a = b
    · subst h
      simp only [Memory.erase, if_true, ih, Memory.read]
      split <;> simp_all
    · simp only [Memory.erase, h, if_false, Memory.read, ih]
      by_cases h' : a' = b
      · simp [h', show b ≠ a by omega]
      · simp [h']

theorem Memory.read_insert_erase (m : Memory) (a a' : Nat) (w : Byte) :
    Memory.read font ((m.erase a).insert a w) a' = if a' = a then w else Memory.read font m a' := by
  induction m with
  | nil => simp [Memory.erase, Memory.insert, Memory.read]
  | cons c rest ih =>
    obtain ⟨b, u⟩ := c
    by_cases h : a = b
    · subst h
      simp only [Memory.erase, if_true, ih, Memory.read]
      split <;> simp_all
    · have hr := Memory.read_erase (font := font) rest a a'
      by_cases hab : a < b
      · simp only [Memory.erase, h, if_false, Memory.insert, hab, if_true, Memory.read, hr]
        split <;> simp_all
      · simp only [Memory.erase, h, if_false, Memory.insert, hab, Memory.read, ih]
        by_cases h' : a' = b
        · simp [h', show b ≠ a by omega]
        · simp [h']

/-- Read after write: the written address holds the byte written, every other one what it held. -/
@[simp] theorem Memory.read_write (m : Memory) (a a' : Nat) (b : Byte) :
    Memory.read font (m.write font a b) a' = if a' = a then b else Memory.read font m a' := by
  unfold Memory.write
  split
  · rw [Memory.read_erase]
    split <;> simp_all
  · rw [Memory.read_insert_erase]

/-- Read after a run of writes: byte `k` of the run at `base + k`, every other address as it was. -/
theorem Memory.read_writeBytes (m : Memory) (base : Nat) (bs : List Byte) (a : Nat) :
    Memory.read font (m.writeBytes font base bs) a =
      if base ≤ a ∧ a < base + bs.length then bs[a - base]?.getD 0 else Memory.read font m a := by
  induction bs generalizing m base with
  | nil => simp [Memory.writeBytes]
  | cons b bs ih =>
    rw [Memory.writeBytes, ih, Memory.read_write]
    rcases Nat.lt_trichotomy a base with h | h | h
    · simp [show ¬ base + 1 ≤ a by omega, show ¬ base ≤ a by omega, show a ≠ base by omega]
    · simp [h]
    · obtain ⟨d, hd⟩ : ∃ d, a - base = d + 1 := ⟨a - base - 1, by omega⟩
      have hd' : a - (base + 1) = d := by omega
      by_cases h2 : a < base + 1 + bs.length
      · simp [hd, hd', h2, show base + 1 ≤ a by omega, show base ≤ a by omega,
          show a < base + (bs.length + 1) by omega]
      · simp [h2, show a ≠ base by omega, show ¬ a < base + (bs.length + 1) by omega]

/-! ### The canonical form -/

theorem Memory.wfFrom_mono {lo lo' : Nat} (h : lo' ≤ lo) {m : Memory} (hm : Memory.wfFrom font lo m = true) :
    Memory.wfFrom font lo' m = true := by
  cases m with
  | nil => rfl
  | cons c rest =>
    simp only [Memory.wfFrom, Bool.and_eq_true, decide_eq_true_eq] at hm ⊢
    exact ⟨⟨⟨by omega, hm.1.1.2⟩, hm.1.2⟩, hm.2⟩

theorem Memory.wfFrom_erase {lo : Nat} {m : Memory} (a : Nat) (hm : Memory.wfFrom font lo m = true) :
    Memory.wfFrom font lo (m.erase a) = true := by
  induction m generalizing lo with
  | nil => rfl
  | cons c rest ih =>
    simp only [Memory.wfFrom, Bool.and_eq_true, decide_eq_true_eq] at hm
    unfold Memory.erase
    split
    · exact Memory.wfFrom_mono (by omega) (ih hm.2)
    · simp only [Memory.wfFrom, Bool.and_eq_true, decide_eq_true_eq]
      exact ⟨hm.1, ih hm.2⟩

theorem Memory.wfFrom_insert_erase {lo : Nat} {m : Memory} {a : Nat} {b : Byte} (hlo : lo ≤ a)
    (ha : a < Config.memSize) (hb : b ≠ Memory.background font a) (hm : Memory.wfFrom font lo m = true) :
    Memory.wfFrom font lo ((m.erase a).insert a b) = true := by
  induction m generalizing lo with
  | nil => simp [Memory.erase, Memory.insert, Memory.wfFrom, hlo, hb]; omega
  | cons c rest ih =>
    obtain ⟨a', b'⟩ := c
    simp only [Memory.wfFrom, Bool.and_eq_true, decide_eq_true_eq] at hm
    unfold Memory.erase
    split
    · exact ih hlo (Memory.wfFrom_mono (by omega) hm.2)
    · unfold Memory.insert
      split
      · have := Memory.wfFrom_erase a hm.2
        simp only [Memory.wfFrom, Bool.and_eq_true, decide_eq_true_eq, bne_iff_ne, ne_eq]
        exact ⟨⟨⟨hlo, ha⟩, hb⟩, ⟨⟨by omega, hm.1.1.2⟩, by simpa using hm.1.2⟩, this⟩
      · simp only [Memory.wfFrom, Bool.and_eq_true, decide_eq_true_eq]
        exact ⟨hm.1, ih (by omega) hm.2⟩

/-- A write inside the memory keeps the canonical form. -/
theorem Memory.wf_write {m : Memory} {a : Nat} {b : Byte} (ha : a < Config.memSize)
    (hm : Memory.wf font m = true) : Memory.wf font (m.write font a b) = true := by
  unfold Memory.write
  split
  · exact Memory.wfFrom_erase a hm
  · exact Memory.wfFrom_insert_erase (Nat.zero_le _) ha ‹_› hm

/-- A run of writes inside the memory keeps the canonical form. -/
theorem Memory.wf_writeBytes {m : Memory} {base : Nat} {bs : List Byte}
    (h : bs = [] ∨ base + bs.length ≤ Config.memSize) (hm : Memory.wf font m = true) :
    Memory.wf font (m.writeBytes font base bs) = true := by
  induction bs generalizing m base with
  | nil => exact hm
  | cons b bs ih =>
    have h' : base + (bs.length + 1) ≤ Config.memSize := by simpa using h
    exact ih (.inr (by omega)) (Memory.wf_write (by omega) hm)

/-- The memory of the reset state, which lists nothing, is in canonical form. -/
theorem Memory.wf_reset : Memory.wf State.reset.params.font State.reset.mem = true := rfl

end Sys2Proof.Machine
end

