-- ==== Sys2Proof/Laws/Ops.lean ====
section
/-! SUPPORT. One lemma per shared operation that says everything it can do; the provers cite these instead of
unfolding the operation. -/

namespace Sys2Proof.Machine

/-- The check of a whole access, in numbers (20 R56). -/
theorem accessOk_iff (base n : Nat) : accessOk base n = true ↔ n = 0 ∨ base + n ≤ Config.memSize := by
  simp only [accessOk, Bool.or_eq_true, beq_iff_eq, decide_eq_true_eq, Config.memSize]
  omega

/-- A load: the bytes at consecutive addresses, or OutOfBounds. -/
theorem State.loadBytes_cases (s : State) (base n : Nat) :
    (accessOk base n = true ∧ s.loadBytes base n = .ok ((List.range n).map fun k => s.readByte (base + k))) ∨
      (accessOk base n = false ∧ s.loadBytes base n = .error .outOfBounds) := by
  unfold State.loadBytes
  cases accessOk base n <;> simp

/-- A store: the state with the bytes written at consecutive addresses and nothing else changed, or
OutOfBounds. -/
theorem State.storeBytes_cases (s : State) (base : Nat) (bs : List Byte) :
    (accessOk base bs.length = true ∧
        s.storeBytes base bs = .ok { s with mem := Memory.writeBytes s.params.font s.mem base bs }) ∨
      (accessOk base bs.length = false ∧ s.storeBytes base bs = .error .outOfBounds) := by
  unfold State.storeBytes
  cases accessOk base bs.length <;> simp

/-- What a store leaves to be read. -/
theorem State.readByte_writeBytes (s : State) (base : Nat) (bs : List Byte) (a : Nat) :
    State.readByte { s with mem := Memory.writeBytes s.params.font s.mem base bs } a =
      if base ≤ a ∧ a < base + bs.length then bs[a - base]?.getD 0 else s.readByte a :=
  Memory.read_writeBytes s.mem base bs a

/-- The fetch: the word at PC when both its bytes are inside the memory, else OutOfBounds. -/
theorem State.fetch_cases (s : State) :
    (s.pc.toNat ≤ 4094 ∧
        s.fetch = .ok (wordOfBytes (s.readByte s.pc.toNat) (s.readByte (s.pc.toNat + 1)))) ∨
      (4095 ≤ s.pc.toNat ∧ s.fetch = .error .outOfBounds) := by
  unfold State.fetch
  by_cases h : s.pc.toNat ≤ 4094
  · left
    have : accessOk s.pc.toNat 2 = true := (accessOk_iff _ _).2 (.inr (by simp only [Config.memSize]; omega))
    simp [h, this]
  · right
    have : accessOk s.pc.toNat 2 = false := by
      rw [← Bool.not_eq_true, accessOk_iff]
      simp only [Config.memSize]
      omega
    simp [this]
    omega

/-- A push: one frame more, or StackOverflow. -/
theorem State.push_cases (s : State) (ret : Word) :
    (s.stk.length < 16 ∧ s.push ret = .ok { s with stk := { v := s.v, i := s.i, ret := ret } :: s.stk }) ∨
      (16 ≤ s.stk.length ∧ s.push ret = .error .stackOverflow) := by
  unfold State.push
  by_cases h : 16 ≤ s.stk.length
  · right; simp [h]
  · left; simp [h, show s.stk.length < 16 by omega]

/-- A pop: V, I, PC from the top frame, or StackUnderflow. -/
theorem State.popRestore_cases (s : State) :
    (∃ f rest, s.stk = f :: rest ∧ s.popRestore = .ok { s with v := f.v, i := f.i, pc := f.ret, stk := rest }) ∨
      (s.stk = [] ∧ s.popRestore = .error .stackUnderflow) := by
  unfold State.popRestore
  cases h : s.stk with
  | nil => simp
  | cons f rest => exact .inl ⟨f, rest, rfl, rfl⟩

@[simp] theorem State.finish_ok (s t : State) : s.finish (.ok t) = .next t := rfl

@[simp] theorem State.finish_error (s : State) (r : Reason) : s.finish (.error r) = .next (s.raise r) := rfl

/-- Finishing an instruction answers a next state: its result, or the fault taken from the state it began
in. -/
theorem State.finish_eq_next {s t : State} {x : Except Reason State} :
    s.finish x = .next t ↔ x = .ok t ∨ ∃ r, x = .error r ∧ t = s.raise r := by
  cases x <;> simp [eq_comm]

@[simp] theorem except_map_ok {α β : Type} (f : α → β) (a : α) :
    (Except.ok a : Except Reason α).map f = .ok (f a) := rfl

@[simp] theorem except_map_error {α β : Type} (f : α → β) (r : Reason) :
    (Except.error r : Except Reason α).map f = .error r := rfl

/-- `V[0] .. V[x]` are x + 1 bytes. -/
@[simp] theorem State.length_getVs (s : State) (x : Reg) : (s.getVs x).length = x.toNat + 1 := by
  simp [State.getVs]

/-- Byte k of `V[0] .. V[x]` is `V[k]`. -/
theorem State.getVs_getElem? (s : State) (x r : Reg) (h : r.toNat ≤ x.toNat) :
    (s.getVs x)[r.toNat]? = some (s.getV r) := by
  simp [State.getVs, show r.toNat < x.toNat + 1 by omega]

/-- The load transaction: the ROM copied, or reported with nothing copied (70 R263). -/
theorem State.load_cases (s : State) (b : List Byte) :
    (b.length ≤ 3584 ∧
        s.load b = (.ok, { s with mem := Memory.writeBytes s.params.font s.mem 0x200 b })) ∨
      (3584 < b.length ∧ s.load b = (.romTooLarge, s.raise .romTooLarge)) := by
  unfold State.load
  by_cases h : 3584 < b.length
  · right; simp [h]
  · left; simp [h]; omega

/-! ### Flags -/

@[simp] theorem flagByte_toNat (c : Bool) : (flagByte c).toNat = if c = true then 1 else 0 := by
  cases c <;> rfl

theorem carryFlag_toNat (a b : Byte) : (carryFlag a b).toNat = if 256 ≤ a.toNat + b.toNat then 1 else 0 := by
  simp [carryFlag]

theorem notBorrowFlag_toNat (a b : Byte) : (notBorrowFlag a b).toNat = if b.toNat ≤ a.toNat then 1 else 0 := by
  simp [notBorrowFlag]

theorem lowBitFlag_toNat (a : Byte) : (lowBitFlag a).toNat = a.toNat % 2 := by
  simp [lowBitFlag, Nat.and_one_is_mod]

theorem highBitFlag_toNat (a : Byte) : (highBitFlag a).toNat = a.toNat / 128 := by
  have := a.isLt
  have h1 : (1 : Byte).toNat = 1 := rfl
  simp only [highBitFlag, BitVec.toNat_and, BitVec.toNat_ushiftRight, h1, Nat.shiftRight_eq_div_pow,
    Nat.and_one_is_mod]
  omega

/-- Result first, flag last: VF holds the flag, V[x] the result unless x is VF (42 R151). -/
theorem State.getV_setResultFlag (s : State) (x r : Reg) (result flag : Byte) :
    (s.setResultFlag x result flag).getV r =
      if r = flagReg then flag else if r = x then result else s.getV r := by
  simp [State.setResultFlag]

/-! ### Operands -/

@[simp] theorem zextAddr_toNat (nnn : Addr12) : (zextAddr nnn).toNat = nnn.toNat := by
  have := nnn.isLt
  simp [zextAddr]
  omega

@[simp] theorem zextByte_toNat (b : Byte) : (zextByte b).toNat = b.toNat := by
  have := b.isLt
  simp [zextByte]
  omega

theorem byte_lowNibble (b : Byte) : (b &&& 0x0F).toNat = b.toNat % 16 := by
  rw [BitVec.toNat_and]
  exact Nat.and_two_pow_sub_one_eq_mod b.toNat 4

theorem keyIndex_eq (b : Byte) : keyIndex b = BitVec.ofNat 4 (b.toNat % 16) := by
  apply BitVec.eq_of_toNat_eq
  simp only [keyIndex, BitVec.toNat_setWidth, byte_lowNibble, BitVec.toNat_ofNat]

theorem glyphAddr_toNat (b : Byte) : (glyphAddr b).toNat = 0x050 + 5 * (b.toNat % 16) := by
  have : b.toNat % 16 < 16 := Nat.mod_lt _ (by decide)
  have h1 : (0x050 : Word).toNat = 0x050 := rfl
  have h2 : (5 : Word).toNat = 5 := rfl
  simp only [glyphAddr, BitVec.toNat_add, BitVec.toNat_mul, zextByte_toNat, byte_lowNibble, h1, h2]
  omega

end Sys2Proof.Machine
end

