-- ==== Sys2Proof/Laws/Framebuffer.lean ====
section
/-! SUPPORT. The framebuffer operations cell by cell: what a sprite row covers and what drawing one row does.
-/

namespace Sys2Proof.Machine

@[simp] theorem FrameBuffer.cell_blank (r c : Nat) : FrameBuffer.blank.cell r c = false := by
  by_cases h : r < 32 <;> simp [FrameBuffer.blank, FrameBuffer.cell, h]

/-- The pixels of one sprite byte: bit 7 at the origin column, clipped at column 63 (44 R191, R192). -/
theorem spriteRow_getMsbD (b : Byte) (x0 c : Nat) :
    (spriteRow b x0).getMsbD c =
      (decide (c < 64) && decide (x0 ≤ c) && decide (c < x0 + 8) && b.getLsbD (7 - (c - x0))) := by
  simp only [spriteRow, BitVec.getMsbD_ushiftRight, BitVec.getMsbD_append]
  by_cases h1 : c < 64 <;> by_cases h2 : x0 ≤ c <;> by_cases h3 : c < x0 + 8 <;>
    simp [h1, h2, h3, show c - x0 < 8 ↔ c < x0 + 8 by omega, BitVec.getMsbD_eq_getLsbD, Nat.not_lt.2,
      show ¬ (c < x0) ↔ x0 ≤ c by omega]

/-- One sprite byte drawn on row `r0`: that row's cells XORed, every other cell as it was. -/
theorem FrameBuffer.cell_drawRow (fb : FrameBuffer) (hit : Bool) (x0 r0 : Nat) (b : Byte) (r c : Nat) :
    (fb.drawRow hit x0 r0 b).1.cell r c =
      (fb.cell r c ^^ (decide (r = r0) && decide (r0 < 32) && (spriteRow b x0).getMsbD c)) := by
  unfold FrameBuffer.drawRow
  split
  · rename_i h
    by_cases hr : r = r0
    · subst hr
      simp [FrameBuffer.cell, h]
    · simp [FrameBuffer.cell, hr, Vector.getElem?_set_ne, show r0 ≠ r by omega]
  · rename_i h
    simp [h]

/-- Two framebuffers with the same cells are the same. -/
theorem FrameBuffer.ext_cell {a b : FrameBuffer} (h : ∀ r c, r < 32 → c < 64 → a.cell r c = b.cell r c) :
    a = b := by
  apply Vector.ext
  intro r hr
  apply BitVec.eq_of_getMsbD_eq
  intro c hc
  simpa [FrameBuffer.cell, hr] using h r c hr hc

/-- Two rows share a set bit. -/
theorem row_and_ne_zero (a b : BitVec 64) :
    (a &&& b != 0) = true ↔ ∃ c, c < 64 ∧ a.getMsbD c = true ∧ b.getMsbD c = true := by
  constructor
  · intro h
    by_contra hc
    have h0 : a &&& b = 0 := by
      apply BitVec.eq_of_getMsbD_eq
      intro c hlt
      by_contra hne
      have hbit : a.getMsbD c = true ∧ b.getMsbD c = true := by simpa using hne
      exact hc ⟨c, hlt, hbit⟩
    simp [h0] at h
  · rintro ⟨c, -, h1, h2⟩
    rw [bne_iff_ne]
    intro h
    have hbit : (a &&& b).getMsbD c = true := by simp [h1, h2]
    rw [h] at hbit
    simp at hbit

/-- How a sprite's pixels split into its first byte's row and the rest. -/
theorem spritePixel_cons (b : Byte) (bs : List Byte) (x0 r0 r c : Nat) (hr : r < 32) (hc : c < 64) :
    spritePixel (b :: bs) x0 r0 r c =
      ((decide (r = r0) && decide (r0 < 32) && (spriteRow b x0).getMsbD c) ^^ spritePixel bs x0 (r0 + 1) r c) := by
  rw [spriteRow_getMsbD]
  rcases Nat.lt_trichotomy r r0 with h | h | h
  · simp [spritePixel, show r ≠ r0 by omega, show ¬ r0 ≤ r by omega, show ¬ r0 + 1 ≤ r by omega]
  · subst h
    simp [spritePixel, hr, hc]
  · obtain ⟨d, hd⟩ : ∃ d, r - r0 = d + 1 := ⟨r - r0 - 1, by omega⟩
    simp [spritePixel, show r ≠ r0 by omega, hd, show r0 ≤ r by omega, show r0 + 1 ≤ r by omega,
      show r - (r0 + 1) = d by omega]

/-- Drawing rows: every cell of the grid XORed with the sprite's pixel there (44 R191, R192). -/
theorem FrameBuffer.cell_drawRows (fb : FrameBuffer) (hit : Bool) (x0 r0 : Nat) (bs : List Byte) (r c : Nat)
    (hr : r < 32) (hc : c < 64) :
    (fb.drawRows hit x0 r0 bs).1.cell r c = (fb.cell r c ^^ spritePixel bs x0 r0 r c) := by
  induction bs generalizing fb hit r0 with
  | nil => simp [FrameBuffer.drawRows, spritePixel]
  | cons b bs ih =>
    rw [FrameBuffer.drawRows, ih, FrameBuffer.cell_drawRow, Bool.xor_assoc, spritePixel_cons b bs x0 r0 r c hr hc]

/-- One row hits when a lit cell of that row is drawn on. -/
theorem FrameBuffer.hit_drawRow (fb : FrameBuffer) (hit : Bool) (x0 r0 : Nat) (b : Byte) :
    (fb.drawRow hit x0 r0 b).2 = true ↔
      hit = true ∨ ∃ c, r0 < 32 ∧ c < 64 ∧ fb.cell r0 c = true ∧ (spriteRow b x0).getMsbD c = true := by
  unfold FrameBuffer.drawRow
  split
  · rename_i h
    simp only [Bool.or_eq_true, row_and_ne_zero]
    simp [FrameBuffer.cell, h]
  · rename_i h
    simp [h]

/-- Drawing rows hits exactly when a lit cell of the grid lies under a pixel of the sprite (44 R191). -/
theorem FrameBuffer.hit_drawRows (fb : FrameBuffer) (hit : Bool) (x0 r0 : Nat) (bs : List Byte) :
    (fb.drawRows hit x0 r0 bs).2 = true ↔
      hit = true ∨ ∃ r c, r < 32 ∧ c < 64 ∧ fb.cell r c = true ∧ spritePixel bs x0 r0 r c = true := by
  induction bs generalizing fb hit r0 with
  | nil => simp [FrameBuffer.drawRows, spritePixel]
  | cons b bs ih =>
    rw [FrameBuffer.drawRows, ih, FrameBuffer.hit_drawRow]
    have key : ∀ r c, r < 32 → c < 64 →
        (((fb.drawRow hit x0 r0 b).1.cell r c = true ∧ spritePixel bs x0 (r0 + 1) r c = true) ∨
            (r = r0 ∧ fb.cell r c = true ∧ (spriteRow b x0).getMsbD c = true) ↔
          (fb.cell r c = true ∧ spritePixel (b :: bs) x0 r0 r c = true)) := by
      intro r c hr hc
      rw [FrameBuffer.cell_drawRow, spritePixel_cons b bs x0 r0 r c hr hc]
      by_cases h : r = r0
      · subst h
        have : spritePixel bs x0 (r + 1) r c = false := by simp [spritePixel]
        simp [this, hr]
      · simp [h]
    constructor
    · rintro ((h | ⟨c, h3, h4, h5, h6⟩) | ⟨r, c, h3, h4, h5, h6⟩)
      · exact .inl h
      · exact .inr ⟨r0, c, h3, h4, (key r0 c h3 h4).1 (.inr ⟨rfl, h5, h6⟩)⟩
      · exact .inr ⟨r, c, h3, h4, (key r c h3 h4).1 (.inl ⟨h5, h6⟩)⟩
    · rintro (h | ⟨r, c, h3, h4, h5⟩)
      · exact .inl (.inl h)
      · rcases (key r c h3 h4).2 h5 with h6 | ⟨rfl, h6⟩
        · exact .inr ⟨r, c, h3, h4, h6⟩
        · exact .inl (.inr ⟨c, h3, h4, h6⟩)

end Sys2Proof.Machine
end

