-- ==== Sys2Proof/Laws/PerInstr.lean ====
section
/-! SUPPORT. Per instruction: its encoding has the fixed bits that its row of spec/opcode_table.json gives it,
whatever its operands (30_encoding.md R84). -/

namespace Sys2Proof.Laws.FixedBits

/-- The instruction's row of the opcode table. -/
def row (i : Instr) : Option OpcodeRow := opcodeRows.find? fun r => r.mnemonic == i.mnemonic

/-- The encoding matches the instruction's row; STOP alone has no row with a pattern, and its word is the
machine's halt word. -/
def Statement (i : Instr) : Prop :=
  ∀ h : Option Word,
    match row i with
    | some r => r.matches (encode h i) = true
    | none => i = .stop ∧ ∀ w, h = some w → encode h i = w

theorem mask_nnn (c : BitVec 4) (nnn : Addr12) : (c ++ nnn : Word) &&& 0xF000 = c ++ 0#12 := by
  have h : (0xF000 : Word) = 0xF#4 ++ 0#12 := rfl
  have hc : c &&& 0xF#4 = c := BitVec.and_allOnes
  rw [h, BitVec.and_append, hc, BitVec.and_zero]

theorem mask_xnn (c : BitVec 4) (x : Reg) (nn : Byte) : (c ++ x ++ nn : Word) &&& 0xF000 = c ++ 0#4 ++ 0#8 := by
  have h : (0xF000 : Word) = 0xF#4 ++ 0#4 ++ 0#8 := rfl
  have hc : c &&& 0xF#4 = c := BitVec.and_allOnes
  rw [h, BitVec.and_append, BitVec.and_append, hc, BitVec.and_zero, BitVec.and_zero]

theorem mask_xyn (c : BitVec 4) (x y : Reg) (n : Nibble) :
    (c ++ x ++ y ++ n : Word) &&& 0xF000 = c ++ 0#4 ++ 0#4 ++ 0#4 := by
  have h : (0xF000 : Word) = 0xF#4 ++ 0#4 ++ 0#4 ++ 0#4 := rfl
  have hc : c &&& 0xF#4 = c := BitVec.and_allOnes
  rw [h, BitVec.and_append, BitVec.and_append, BitVec.and_append, hc, BitVec.and_zero, BitVec.and_zero,
    BitVec.and_zero]

theorem mask_xyn_sub (c : BitVec 4) (x y : Reg) (n : Nibble) :
    (c ++ x ++ y ++ n : Word) &&& 0xF00F = c ++ 0#4 ++ 0#4 ++ n := by
  have h : (0xF00F : Word) = 0xF#4 ++ 0#4 ++ 0#4 ++ 0xF#4 := rfl
  have hc : c &&& 0xF#4 = c := BitVec.and_allOnes
  have hn : n &&& 0xF#4 = n := BitVec.and_allOnes
  rw [h, BitVec.and_append, BitVec.and_append, BitVec.and_append, hc, hn, BitVec.and_zero, BitVec.and_zero]

theorem mask_xsub (c : BitVec 4) (x : Reg) (nn : Byte) : (c ++ x ++ nn : Word) &&& 0xF0FF = c ++ 0#4 ++ nn := by
  have h : (0xF0FF : Word) = 0xF#4 ++ 0#4 ++ 0xFF#8 := rfl
  have hc : c &&& 0xF#4 = c := BitVec.and_allOnes
  have hn : nn &&& 0xFF#8 = nn := BitVec.and_allOnes
  rw [h, BitVec.and_append, BitVec.and_append, hc, hn, BitVec.and_zero]

theorem clear : Statement .clear := fun _ => beq_iff_eq.2 (by simp only [encode]; decide)

theorem ret : Statement .ret := fun _ => beq_iff_eq.2 (by simp only [encode]; decide)

theorem jp (nnn : Addr12) : Statement (.jp nnn) := fun _ => beq_iff_eq.2 (mask_nnn _ _)

theorem call (nnn : Addr12) : Statement (.call nnn) := fun _ => beq_iff_eq.2 (mask_nnn _ _)

theorem seImm (x : Reg) (nn : Byte) : Statement (.seImm x nn) := fun _ => beq_iff_eq.2 (mask_xnn _ _ _)

theorem sneImm (x : Reg) (nn : Byte) : Statement (.sneImm x nn) := fun _ => beq_iff_eq.2 (mask_xnn _ _ _)

theorem seReg (x y : Reg) : Statement (.seReg x y) := fun _ => beq_iff_eq.2 (mask_xyn_sub _ _ _ _)

theorem ldImm (x : Reg) (nn : Byte) : Statement (.ldImm x nn) := fun _ => beq_iff_eq.2 (mask_xnn _ _ _)

theorem addImm (x : Reg) (nn : Byte) : Statement (.addImm x nn) := fun _ => beq_iff_eq.2 (mask_xnn _ _ _)

theorem ldReg (x y : Reg) : Statement (.ldReg x y) := fun _ => beq_iff_eq.2 (mask_xyn_sub _ _ _ _)

theorem or (x y : Reg) : Statement (.or x y) := fun _ => beq_iff_eq.2 (mask_xyn_sub _ _ _ _)

theorem and (x y : Reg) : Statement (.and x y) := fun _ => beq_iff_eq.2 (mask_xyn_sub _ _ _ _)

theorem xor (x y : Reg) : Statement (.xor x y) := fun _ => beq_iff_eq.2 (mask_xyn_sub _ _ _ _)

theorem add (x y : Reg) : Statement (.add x y) := fun _ => beq_iff_eq.2 (mask_xyn_sub _ _ _ _)

theorem sub (x y : Reg) : Statement (.sub x y) := fun _ => beq_iff_eq.2 (mask_xyn_sub _ _ _ _)

theorem shr (x y : Reg) : Statement (.shr x y) := fun _ => beq_iff_eq.2 (mask_xyn_sub _ _ _ _)

theorem subn (x y : Reg) : Statement (.subn x y) := fun _ => beq_iff_eq.2 (mask_xyn_sub _ _ _ _)

theorem shl (x y : Reg) : Statement (.shl x y) := fun _ => beq_iff_eq.2 (mask_xyn_sub _ _ _ _)

theorem sneReg (x y : Reg) : Statement (.sneReg x y) := fun _ => beq_iff_eq.2 (mask_xyn_sub _ _ _ _)

theorem ldI (nnn : Addr12) : Statement (.ldI nnn) := fun _ => beq_iff_eq.2 (mask_nnn _ _)

theorem jpV0 (nnn : Addr12) : Statement (.jpV0 nnn) := fun _ => beq_iff_eq.2 (mask_nnn _ _)

theorem rand (x : Reg) (nn : Byte) : Statement (.rand x nn) := fun _ => beq_iff_eq.2 (mask_xnn _ _ _)

theorem draw (x y : Reg) (n : Nibble) : Statement (.draw x y n) := fun _ => beq_iff_eq.2 (mask_xyn _ _ _ _)

theorem skipIfPressed (x : Reg) : Statement (.skipIfPressed x) := fun _ => beq_iff_eq.2 (mask_xsub _ _ _)

theorem skipIfNotPressed (x : Reg) : Statement (.skipIfNotPressed x) := fun _ => beq_iff_eq.2 (mask_xsub _ _ _)

theorem ldVxDt (x : Reg) : Statement (.ldVxDt x) := fun _ => beq_iff_eq.2 (mask_xsub _ _ _)

theorem waitKey (x : Reg) : Statement (.waitKey x) := fun _ => beq_iff_eq.2 (mask_xsub _ _ _)

theorem ldDtVx (x : Reg) : Statement (.ldDtVx x) := fun _ => beq_iff_eq.2 (mask_xsub _ _ _)

theorem ldStVx (x : Reg) : Statement (.ldStVx x) := fun _ => beq_iff_eq.2 (mask_xsub _ _ _)

theorem addI (x : Reg) : Statement (.addI x) := fun _ => beq_iff_eq.2 (mask_xsub _ _ _)

theorem ldF (x : Reg) : Statement (.ldF x) := fun _ => beq_iff_eq.2 (mask_xsub _ _ _)

theorem bcd (x : Reg) : Statement (.bcd x) := fun _ => beq_iff_eq.2 (mask_xsub _ _ _)

theorem regDump (x : Reg) : Statement (.regDump x) := fun _ => beq_iff_eq.2 (mask_xsub _ _ _)

theorem regLoad (x : Reg) : Statement (.regLoad x) := fun _ => beq_iff_eq.2 (mask_xsub _ _ _)

theorem stop : Statement .stop := fun _ => ⟨rfl, fun _ h => by simp [encode, h]⟩

end Sys2Proof.Laws.FixedBits
end

