-- ==== Sys2Proof/Laws/Step.lean ====
section
/-! SUPPORT. What a step can do, said once: the transactions, the fetch and decode, the events. -/

namespace Sys2Proof.Machine

/-- Outside a key wait the schedule is the list of inputs. -/
theorem State.schedule_eq_inputs {s : State} (h : ∀ x, s.status ≠ .waitingKey x) : s.schedule = s.inputs := by
  unfold State.schedule
  cases hs : s.status <;> simp_all

/-- Events other than a call of `step()` are never blocked. -/
theorem State.schedule_cons {s : State} {e : Event} {rest : List Event} (h : s.inputs = e :: rest)
    (he : e ≠ .step) : s.schedule = e :: rest := by
  unfold State.schedule
  cases hs : s.status <;> simp [h, he]

/-- With nothing in the inputs, nothing is scheduled. -/
theorem State.schedule_nil {s : State} (h : s.inputs = []) : s.schedule = [] := by
  unfold State.schedule
  cases hs : s.status <;> simp [h]

/-- In a key wait no scheduled transaction is a call of `step()`. -/
theorem State.schedule_head_ne_step {s : State} {x : Reg} {e : Event} {rest : List Event}
    (hs : s.status = .waitingKey x) (h : s.schedule = e :: rest) : e ≠ .step := by
  simp only [State.schedule, hs] at h
  have hd := List.head?_dropWhile_not (· == Event.step) s.inputs
  rw [h] at hd
  simpa using hd

/-- A step performs the first transaction that can take place. -/
theorem step_cons {s : State} {e : Event} {rest : List Event} (h : s.schedule = e :: rest) :
    step s = State.perform { s with inputs := rest } e := by
  simp [step, State.transact, h]

/-- An event at the head of the inputs that is no call of `step()` is performed, whatever the status. -/
theorem step_event {s : State} {e : Event} {rest : List Event} (h : s.inputs = e :: rest) (he : e ≠ .step) :
    step s = State.perform { s with inputs := rest } e := step_cons (State.schedule_cons h he)

/-- With nothing scheduled a step is the host's `step()`. -/
theorem step_nil {s : State} (h : s.inputs = []) : step s = s.stepCall := by
  have hs : ({ s with inputs := [] } : State) = s := by rw [← h]
  simp [step, State.transact, State.schedule_nil h, hs]

/-- Every step either is the host's `step()` with nothing scheduled, or performs the first transaction that
can take place, with the rest kept. -/
theorem step_cases (s : State) :
    (s.schedule = [] ∧ step s = State.stepCall { s with inputs := [] }) ∨
      ∃ e rest, s.schedule = e :: rest ∧ step s = State.perform { s with inputs := rest } e := by
  cases h : s.schedule with
  | nil => exact .inl ⟨rfl, by simp [step, State.transact, h]⟩
  | cons e rest => exact .inr ⟨e, rest, rfl, step_cons h⟩

/-- A `step()` by status: one instruction when Running, stuck in the hold, nothing when final (40 R100). -/
theorem State.stepCall_cases (s : State) :
    (s.status = .running ∧ s.stepCall = s.runOne) ∨
      ((∃ x, s.status = .waitingKey x) ∧ s.stepCall = .fault .keyHold) ∨ (s.final ∧ s.stepCall = .next s) := by
  unfold State.stepCall
  cases h : s.status <;> simp [State.final, h]

/-- One instruction: the fault of the fetch or the decoder, or the Execute arm (40 R101). -/
theorem State.runOne_cases (s : State) :
    (∃ r, s.fetchDecode = .error r ∧ s.runOne = .next (s.raise r)) ∨
      ∃ i, s.fetchDecode = .ok i ∧ s.runOne = exec i s := by
  unfold State.runOne
  cases h : s.fetchDecode <;> simp

/-- Fetch and decode: OutOfBounds, the instruction, or UnknownOpcode with the word fetched (60 R227). -/
theorem State.fetchDecode_cases (s : State) :
    (4095 ≤ s.pc.toNat ∧ s.fetchDecode = .error .outOfBounds) ∨
      (s.pc.toNat ≤ 4094 ∧ ∃ w, w = wordOfBytes (s.readByte s.pc.toNat) (s.readByte (s.pc.toNat + 1)) ∧
        ((∃ i, decode s.params.haltWord w = .ok i ∧ s.fetchDecode = .ok i) ∨
          (decode s.params.haltWord w = .error (.unknown w) ∧ s.fetchDecode = .error (.unknownOpcode w)))) := by
  rcases s.fetch_cases with ⟨hp, hf⟩ | ⟨hp, hf⟩
  · right
    refine ⟨hp, _, rfl, ?_⟩
    rcases decode_cases s.params.haltWord
      (wordOfBytes (s.readByte s.pc.toNat) (s.readByte (s.pc.toNat + 1))) with ⟨i, -, hd⟩ | ⟨-, -, hd⟩ | ⟨-, -, hd⟩
    · exact .inl ⟨i, hd, by simp [State.fetchDecode, hf, hd]⟩
    · exact .inl ⟨.stop, hd, by simp [State.fetchDecode, hf, hd]⟩
    · exact .inr ⟨hd, by simp [State.fetchDecode, hf, hd]⟩
  · exact .inl ⟨hp, by simp [State.fetchDecode, hf]⟩

/-- Fetch and decode depend on PC, memory and the parameters alone. -/
theorem State.fetchDecode_congr {s t : State} (hpc : t.pc = s.pc) (hm : t.mem = s.mem)
    (hp : t.params = s.params) : t.fetchDecode = s.fetchDecode := by
  simp [State.fetchDecode, State.fetch, State.readByte, hpc, hm, hp]

/-! ### Events -/

/-- One tick of a timer: down by one, not below zero (60 R240). -/
theorem decrement_toNat (t : Byte) : (decrement t).toNat = t.toNat - 1 := by
  unfold decrement
  split
  · simp_all
  · rename_i h
    have h1 : (1 : Byte).toNat = 1 := rfl
    have h0 : t.toNat ≠ 0 := fun hz => h (BitVec.eq_of_toNat_eq (by simpa using hz))
    have := t.isLt
    rw [BitVec.toNat_sub, h1]
    omega

/-- A tick: nothing in a final status, else both timers down (60 R240). -/
theorem State.tick_cases (s : State) : (s.final ∧ s.tick = s) ∨ (¬ s.final ∧ s.tick = s.countDown) := by
  unfold State.tick
  cases h : s.status <;> simp [State.final, h]

/-- A key event: the resolution of a wait, or the latch bit alone (45 R210 to R212). -/
theorem State.setKeyPressed_cases (s : State) (k : BitVec 4) (p : Bool) :
    (∃ x, s.status = .waitingKey x ∧ p = true ∧ s.setKeyPressed k p = s.resolveWait x k) ∨
      ((p = false ∨ ∀ x, s.status ≠ .waitingKey x) ∧ s.setKeyPressed k p = s.setKey k p) := by
  unfold State.setKeyPressed
  cases h : s.status <;> cases p <;> simp

/-- What performing a transaction can do. -/
theorem State.perform_cases {s t : State} {e : Event} (h : s.perform e = .next t) :
    (e = .step ∧ s.stepCall = .next t) ∨ (e = .tick ∧ t = s.tick) ∨
      (∃ k p, e = .setKeyPressed k p ∧ k ≤ 15 ∧ t = s.setKeyPressed (BitVec.ofNat 4 k) p) ∨
      (e = .framebuffer ∧ t = s) ∨ ∃ rom, e = .reset rom ∧ t = s.resetWith rom := by
  cases e with
  | step => exact .inl ⟨rfl, h⟩
  | tick => simpa [State.perform, eq_comm] using h
  | setKeyPressed k p =>
    simp only [State.perform] at h
    split at h
    · rename_i hk
      exact .inr (.inr (.inl ⟨k, p, rfl, hk, by simpa [eq_comm] using h⟩))
    · simp at h
  | framebuffer => simpa [State.perform, eq_comm] using h
  | reset rom => simpa [State.perform, eq_comm] using h
  | load b => simp [State.perform] at h

/-! ### Trace -/

@[simp] theorem State.register_v (s : State) (r : Reg) : s.register (.v r) = (s.getV r).setWidth 16 := rfl
@[simp] theorem State.register_i (s : State) : s.register .i = s.i := rfl
@[simp] theorem State.register_pc (s : State) : s.register .pc = s.pc := rfl
@[simp] theorem State.register_dt (s : State) : s.register .dt = s.dt.setWidth 16 := rfl
@[simp] theorem State.register_st (s : State) : s.register .st = s.st.setWidth 16 := rfl

/-- The list of registers leaves none out. -/
theorem RegisterName.mem_all (r : RegisterName) : r ∈ RegisterName.all := by
  cases r with
  | v r => exact List.mem_append_left _ (List.mem_map.2 ⟨r.toNat, List.mem_range.2 r.isLt, by simp⟩)
  | i => simp [RegisterName.all]
  | pc => simp [RegisterName.all]
  | dt => simp [RegisterName.all]
  | st => simp [RegisterName.all]

/-- The deltas are exactly the registers that differ, with their two values (60 R247). -/
theorem mem_registerDeltas (s t : State) (d : RegisterDelta) :
    d ∈ registerDeltas s t ↔
      d.before = s.register d.register ∧ d.after = t.register d.register ∧ d.before ≠ d.after := by
  simp only [registerDeltas, List.mem_filter, List.mem_map, bne_iff_ne]
  constructor
  · rintro ⟨⟨r, -, rfl⟩, h⟩
    exact ⟨rfl, rfl, h⟩
  · rintro ⟨hb, ha, h⟩
    exact ⟨⟨d.register, RegisterName.mem_all _, by rw [← hb, ← ha]⟩, h⟩

/-! ### Frames -/

/-- Reading a piece of state is all that `sameField` compares: equal states agree on every piece. -/
theorem State.sameField_refl (s : State) (f : Field) : s.sameField s f := by
  cases f <;> simp [State.sameField]

end Sys2Proof.Machine
end

