-- ==== Sys2Proof/Tests/Slice0.lean ====
section
/-! SUPPORT. Tests. Expected results come from spec/95_test_vectors.md (the id of the vector stands at each
test) or from the rule named; the witnesses show that the hypotheses of each statement are met. -/

namespace Sys2Proof.Tests

open Sys2Proof Sys2Proof.Machine

/-! ### Helpers -/

/-- Registers with the listed values, the others zero. -/
def regs (l : List (Nat × Byte)) : Regs := l.foldl (fun v p => v.setIfInBounds p.1 p.2) (Vector.replicate 16 0)

/-- The reset state with registers and I set. -/
def st (l : List (Nat × Byte)) (i : Word) : State := { State.reset with v := regs l, i := i }

/-- The property holds of the state one step leaves, run on a word placed at PC. -/
def after (w : Nat) (s : State) (p : State → Bool) : Bool :=
  match step (s.withFetchWord 16 w) with
  | .next t => p t
  | .fault _ => false
  | .refused _ => false

/-- The property holds of the state one transaction leaves. -/
def onEvent (e : Event) (s : State) (p : State → Bool) : Bool :=
  match step { s with inputs := [e] } with
  | .next t => p t
  | .fault _ => false
  | .refused _ => false

/-- A step faults with the reason and leaves PC, registers, memory and framebuffer as they were. -/
def faults (w : Nat) (s : State) (r : Reason) : Bool :=
  after w s fun t => t == { s.withFetchWord 16 w with status := .faulted r }

/-! ### Well-formedness: an ill-formed term for each check (30 R87, 40 R108) -/

theorem test_wf_stop_needs_halt_word : Instr.stop.wf none = false := by decide

theorem test_wf_stop_needs_illegal_word : Instr.stop.wf (some 0x00E0) = false ∧ Instr.stop.wf (some 0) = true := by
  decide

theorem test_wf_params_refuse_legal_word :
    Config.Params.wf { Config.Params.default with haltWord := some 0x1234 } = false ∧
      Config.Params.default.wf = true := by decide

/-! ### Decoding: a word written out for every constructor (30 R84) -/

/-- The words decode to the instructions, with no halt word. -/
def decodesTo (l : List (Word × Instr)) : Bool :=
  l.all fun p => match decode none p.1 with
    | .ok i => i == p.2
    | .error _ => false

theorem test_decode_control : decodesTo
    [(0x00EE, .ret), (0x1234, .jp 0x234), (0x2ABC, .call 0xABC), (0x3105, .seImm 1 5), (0x4F80, .sneImm 0xF 0x80),
     (0x5AB0, .seReg 0xA 0xB), (0x9C30, .sneReg 0xC 3), (0xBF01, .jpV0 0xF01)] = true := by decide

theorem test_decode_alu : decodesTo
    [(0x6A9C, .ldImm 0xA 0x9C), (0x71FF, .addImm 1 0xFF), (0x8120, .ldReg 1 2), (0x8121, .or 1 2),
     (0x8122, .and 1 2), (0x8123, .xor 1 2), (0x8F14, .add 0xF 1), (0x8125, .sub 1 2), (0x83F6, .shr 3 0xF),
     (0x8127, .subn 1 2), (0x8F0E, .shl 0xF 0), (0xC30F, .rand 3 0x0F)] = true := by decide

theorem test_decode_memory_display : decodesTo
    [(0xA123, .ldI 0x123), (0xF01E, .addI 0), (0xF129, .ldF 1), (0xFA33, .bcd 0xA), (0xF255, .regDump 2),
     (0xFF65, .regLoad 0xF), (0x00E0, .clear), (0xDF15, .draw 0xF 1 5)] = true := by decide

theorem test_decode_timer_input : decodesTo
    [(0xE09E, .skipIfPressed 0), (0xE7A1, .skipIfNotPressed 7), (0xFB07, .ldVxDt 0xB), (0xF00A, .waitKey 0),
     (0xFA15, .ldDtVx 0xA), (0xF218, .ldStVx 2)] = true := by decide

/-- X4, X8 to X11: illegal words of every class that has one (30 R85). -/
theorem test_decode_illegal : ([0x0000, 0x0123, 0x00E1, 0x5123, 0x8008, 0x800F, 0x9121, 0xE000, 0xE09F, 0xF000, 0xF0FF].all
    fun w : Word => match decode none w with | .ok _ => false | .error e => e == .unknown w) = true := by decide

theorem test_decode_halt_word : decode (some 0) 0 = .ok .stop := by rfl

theorem test_decode_short : decodeBytes none [0x12] = .error .truncated := by rfl

/-- 20 R52: the byte at the lower address is the high one, and the rest of the bytes is kept. -/
theorem test_decode_bytes : decodeBytes none [0x12, 0x34, 0x56] = .ok (.jp 0x234, [0x56]) := by rfl

/-! ### Executor (95 section 2.1) -/

/-- X1, X2. -/
theorem test_fetch_at_4094 : after 0x6001 { State.reset with pc := 0x0FFE } (fun t => t.getV 0 == 1 && t.pc == 0x1000) = true := by
  decide

theorem test_fetch_at_4096 : onEvent .step { State.reset with pc := 0x1000 }
    (fun t => t == { State.reset with pc := 0x1000, status := .faulted .outOfBounds }) = true := by decide

/-- X4. -/
theorem test_unknown_word : faults 0x5123 State.reset (.unknownOpcode 0x5123) = true := by decide

/-- X12: an odd PC fetches normally. -/
theorem test_odd_pc : after 0x6042 { State.reset with pc := 0x201 } (fun t => t.getV 0 == 0x42 && t.pc == 0x203) = true := by
  decide

/-- X7. -/
theorem test_stop : after 0x0000 { State.reset with params := { Config.Params.default with haltWord := some 0 } }
    (fun t => t.status == .halted && t.pc == 0x200 && t.result == .halted) = true := by decide

/-! ### Control flow (95 section 2.2) -/

/-- J1. -/
theorem test_jp : after 0x1234 State.reset (fun t => t.pc == 0x234) = true := by decide

/-- J3. -/
theorem test_call : after 0x2300 (st [(3, 9)] 0x123) (fun t =>
    t.stk == [{ v := regs [(3, 9)], i := 0x123, ret := 0x202 }] && t.pc == 0x300) = true := by decide

/-- J4. -/
theorem test_call_overflow : faults 0x2300
    { State.reset with stk := List.replicate 16 { v := regs [], i := 0, ret := 0x202 } } .stackOverflow = true := by
  decide

/-- J5. -/
theorem test_ret : after 0x00EE { State.reset with stk := [{ v := Vector.replicate 16 0x11, i := 0x456, ret := 0x2F0 }] }
    (fun t => t.getV 0 == 0x11 && t.getV 0xF == 0x11 && t.i == 0x456 && t.pc == 0x2F0 && t.stk == []) = true := by
  decide

/-- J6. -/
theorem test_ret_underflow : faults 0x00EE (st [(1, 7)] 0x300) .stackUnderflow = true := by decide

/-- J9, J10. -/
theorem test_se_imm : (after 0x3105 (st [(1, 5)] 0) (fun t => t.pc == 0x204) &&
    after 0x3105 (st [(1, 6)] 0) (fun t => t.pc == 0x202)) = true := by decide

/-- J11, J12. -/
theorem test_sne_imm : (after 0x4105 (st [(1, 5)] 0) (fun t => t.pc == 0x202) &&
    after 0x4105 (st [(1, 6)] 0) (fun t => t.pc == 0x204)) = true := by decide

/-- J13, J14. -/
theorem test_se_reg : (after 0x5120 (st [(1, 0x12), (2, 0x12)] 0) (fun t => t.pc == 0x204) &&
    after 0x5120 (st [(1, 0x12), (2, 0x13)] 0) (fun t => t.pc == 0x202)) = true := by decide

/-- J16, J17. -/
theorem test_sne_reg : (after 0x9120 (st [(1, 1), (2, 2)] 0) (fun t => t.pc == 0x204) &&
    after 0x9110 (st [(1, 1)] 0) (fun t => t.pc == 0x202)) = true := by decide

/-- J19: no masking to 12 bits. -/
theorem test_jp_v0 : after 0xBF01 (st [(0, 0xFF)] 0) (fun t => t.pc == 0x1000) = true := by decide

/-- J21: a skip past the end of memory completes. -/
theorem test_skip_at_end : after 0x3000 { State.reset with pc := 0x0FFE } (fun t => t.pc == 0x1002 && t.status == .running) = true := by
  decide

/-! ### Arithmetic (95 section 2.3) -/

/-- A1. -/
theorem test_ld_imm : after 0x6A9C State.reset (fun t => t.getV 0xA == 0x9C && t.pc == 0x202) = true := by decide

/-- A4: the sum, no carry flag. -/
theorem test_add_imm_vf : after 0x7F01 (st [(15, 0xFF)] 0) (fun t => t.getV 0xF == 0) = true := by decide

/-- A3: VF unchanged on a wrap. -/
theorem test_add_imm : after 0x71FF (st [(1, 0), (15, 7)] 0) (fun t => t.getV 1 == 0xFF && t.getV 0xF == 7) = true := by decide

/-- A5. -/
theorem test_ld_reg : after 0x8120 (st [(2, 0x33)] 0) (fun t => t.getV 1 == 0x33 && t.getV 2 == 0x33) = true := by decide

/-- A6 to A8. -/
theorem test_or : after 0x8121 (st [(1, 0x0F), (2, 0xF0), (15, 0x55)] 0) (fun t => t.getV 1 == 0xFF && t.getV 0xF == 0x55) = true := by
  decide

theorem test_and : after 0x8122 (st [(1, 0x3C), (2, 0x0F), (15, 0x55)] 0) (fun t => t.getV 1 == 0x0C && t.getV 0xF == 0x55) = true := by
  decide

theorem test_xor : after 0x8123 (st [(1, 0x3C), (2, 0x0F), (15, 0x55)] 0) (fun t => t.getV 1 == 0x33 && t.getV 0xF == 0x55) = true := by
  decide

/-- A10, A17: the carry; VF as an operand. -/
theorem test_add : (after 0x8124 (st [(1, 0xFF), (2, 1)] 0) (fun t => t.getV 1 == 0 && t.getV 0xF == 1) &&
    after 0x81F4 (st [(1, 1), (15, 1)] 0) (fun t => t.getV 1 == 2 && t.getV 0xF == 0)) = true := by decide

/-- A15, A16: X = VF, the flag wins. -/
theorem test_add_vf : (after 0x8F14 (st [(15, 0xFF), (1, 2)] 0) (fun t => t.getV 0xF == 1) &&
    after 0x8F14 (st [(15, 0x10), (1, 0x10)] 0) (fun t => t.getV 0xF == 0)) = true := by decide

/-- A18, A19: VF is 1 when there is no borrow. -/
theorem test_sub : (after 0x8125 (st [(1, 0), (2, 1)] 0) (fun t => t.getV 1 == 0xFF && t.getV 0xF == 0) &&
    after 0x8125 (st [(1, 5), (2, 5)] 0) (fun t => t.getV 1 == 0 && t.getV 0xF == 1)) = true := by decide

/-- A23, A24. -/
theorem test_subn : (after 0x8127 (st [(1, 5), (2, 3)] 0) (fun t => t.getV 1 == 0xFE && t.getV 0xF == 0) &&
    after 0x8127 (st [(1, 3), (2, 5)] 0) (fun t => t.getV 1 == 2 && t.getV 0xF == 1)) = true := by decide

/-- A28: Y is ignored; A29. -/
theorem test_shr : (after 0x83F6 (st [(3, 5), (15, 0x80)] 0) (fun t => t.getV 3 == 2 && t.getV 0xF == 1) &&
    after 0x8FF6 (st [(15, 3)] 0) (fun t => t.getV 0xF == 1)) = true := by decide

/-- A31, A35. -/
theorem test_shl : (after 0x830E (st [(3, 0x81)] 0) (fun t => t.getV 3 == 2 && t.getV 0xF == 1) &&
    after 0x8F0E (st [(15, 0x7F)] 0) (fun t => t.getV 0xF == 0)) = true := by decide

/-- A37: an empty mask gives 0 whatever the free byte is, and the draw is counted. -/
theorem test_rand_empty_mask : ∃ t, exec (.rand 3 0) State.reset = .next t ∧ t.getV 3 = 0 ∧ t.draws = 1 := by
  refine ⟨_, rfl, ?_, rfl⟩
  simp [State.getV, State.advance, State.setV]

/-! ### Index register and memory (95 section 2.4) -/

/-- M1. -/
theorem test_ld_i : after 0xA123 State.reset (fun t => t.i == 0x123) = true := by decide

/-- M3, M4: wraps at 16 bits, not at 12. -/
theorem test_add_i : (after 0xF01E (st [(0, 0x20)] 0xFFF0) (fun t => t.i == 0x10) &&
    after 0xF01E (st [(0, 1)] 0x0FFF) (fun t => t.i == 0x1000 && t.getV 0xF == 0)) = true := by decide

/-- M6, M7. -/
theorem test_ld_f : (after 0xF129 (st [(1, 0x1A)] 0) (fun t => t.i == 0x082) &&
    after 0xF129 (st [(1, 0x0F)] 0) (fun t => t.i == 0x09B)) = true := by decide

/-- M9, M10. -/
theorem test_bcd : (after 0xF033 (st [(0, 0x9C)] 0x300)
      (fun t => (t.readByte 0x300, t.readByte 0x301, t.readByte 0x302) == (1, 5, 6) && t.i == 0x300) &&
    after 0xF033 { st [] 0x300 with mem := [(0x300, 0xFF), (0x301, 0xFF), (0x302, 0xFF)] }
      (fun t => (t.readByte 0x300, t.readByte 0x301, t.readByte 0x302) == (0, 0, 0))) = true := by decide

/-- M11, M12. -/
theorem test_bcd_bounds : (after 0xF033 (st [(0, 7)] 0x0FFD) (fun t => t.readByte 0xFFF == 7) &&
    faults 0xF033 (st [(0, 7)] 0x0FFE) .outOfBounds) = true := by decide

/-- M13, M21: the font area is not protected. -/
theorem test_reg_dump : (after 0xF255 (st [(0, 1), (1, 5), (2, 6)] 0x300)
      (fun t => (t.readByte 0x300, t.readByte 0x301, t.readByte 0x302, t.readByte 0x303) == (1, 5, 6, 0) && t.i == 0x300) &&
    after 0xF055 (st [(0, 0xAA)] 0x050) (fun t => t.readByte 0x050 == 0xAA && t.readByte 0x051 == 0x90)) = true := by decide

/-- M14, M15. -/
theorem test_reg_dump_bounds : (after 0xF155 (st [(0, 8), (1, 9)] 0x0FFE) (fun t => t.readByte 0xFFE == 8 && t.readByte 0xFFF == 9) &&
    faults 0xF255 (st [(0, 8)] 0x0FFE) .outOfBounds) = true := by decide

/-- M17. -/
theorem test_reg_load : after 0xF265 { st [(3, 9)] 0x300 with mem := [(0x300, 1), (0x301, 5), (0x302, 6), (0x303, 7)] }
    (fun t => (t.getV 0, t.getV 1, t.getV 2, t.getV 3) == (1, 5, 6, 9) && t.i == 0x300) = true := by decide

/-- M18, M19. -/
theorem test_reg_load_bounds : (after 0xFF65 { st [] 0x0FF0 with mem := [(0xFFF, 0x44)] } (fun t => t.getV 0xF == 0x44) &&
    faults 0xFF65 (st [] 0x0FF1) .outOfBounds) = true := by decide

/-- The canonical form: writing what reset left removes the cell (the reset font byte at 0x050 is F0). -/
theorem test_memory_canonical :
    Memory.write Config.defaultFont [(0x050, 1), (0x300, 2)] 0x050 0xF0 = [(0x300, 2)] ∧
      Memory.wf Config.defaultFont [(0x050, 0xF0)] = false ∧ Memory.wf Config.defaultFont [(4096, 1)] = false := by decide

/-! ### Framebuffer (95 section 2.5) -/

/-- FB1: the eight leftmost cells of row 0. -/
theorem test_draw : after 0xD011 { st [] 0x300 with mem := [(0x300, 0xFF)] }
    (fun t => (List.range 10).map (fun c => t.fb.cell 0 c) == [true, true, true, true, true, true, true, true, false, false] &&
      t.getV 0xF == 0 && !t.fb.cell 1 0) = true := by decide

/-- FB13: a collision in column 63, the rest clipped; FB6: rows clipped at the bottom. -/
theorem test_draw_clip : (after 0xD011 { st [(0, 63)] 0x300 with mem := [(0x300, 0xC0)], fb := State.reset.fb.set 0 1 }
      (fun t => t.fb == State.reset.fb && t.getV 0xF == 1) &&
    after 0xD012 { st [(1, 0x3F)] 0x300 with mem := [(0x300, 0xFF), (0x301, 0xFF)] }
      (fun t => t.fb.cell 31 0 && t.fb.cell 31 7 && !t.fb.cell 31 8 && !t.fb.cell 0 0 && t.getV 0xF == 0)) = true := by decide

/-- FB10. -/
theorem test_draw_bounds : faults 0xD013 (st [(15, 7)] 0x0FFE) .outOfBounds = true := by decide

/-- FB14: glyph 0 of the default font. -/
theorem test_draw_glyph : after 0xD015 (st [] 0x050) (fun t =>
    (List.range 6).map (fun r => (List.range 5).map fun c => t.fb.cell r c) ==
      [[true, true, true, true, false], [true, false, false, true, false], [true, false, false, true, false],
       [true, false, false, true, false], [true, true, true, true, false], [false, false, false, false, false]]) = true := by
  decide

/-- FB3: VF kept. -/
theorem test_clear : after 0x00E0 { st [(15, 1)] 0 with fb := State.reset.fb.set 5 0xFF }
    (fun t => t.fb == State.reset.fb && t.getV 0xF == 1) = true := by decide

/-! ### Timers, input, events (95 sections 2.6, 2.7) -/

/-- T8, T9: key 7, also for a register value of 0x17. -/
theorem test_skp : (after 0xE09E { st [(0, 7)] 0 with key := State.reset.key.set 7 true } (fun t => t.pc == 0x204) &&
    after 0xE09E { st [(0, 0x17)] 0 with key := State.reset.key.set 7 true } (fun t => t.pc == 0x204)) = true := by decide

/-- T10, T11. -/
theorem test_sknp : (after 0xE0A1 (st [(0, 3)] 0) (fun t => t.pc == 0x204) &&
    after 0xE0A1 { st [(0, 3)] 0 with key := State.reset.key.set 3 true } (fun t => t.pc == 0x202)) = true := by decide

/-- T5. -/
theorem test_ld_vx_dt : after 0xFB07 { State.reset with dt := 0x2A } (fun t => t.getV 0xB == 0x2A && t.dt == 0x2A) = true := by decide

/-- T1. -/
theorem test_ld_dt_vx : after 0xFA15 (st [(10, 3)] 0) (fun t => t.dt == 3 && t.st == 0) = true := by decide

/-- T6. -/
theorem test_ld_st_vx : after 0xF218 (st [(2, 0x10)] 0) (fun t => t.st == 0x10 && t.dt == 0) = true := by decide

/-- T12. -/
theorem test_wait_key : after 0xF00A State.reset (fun t => t.status == .waitingKey 0 && t.pc == 0x200 && t.result == .continue) = true := by
  decide

/-- T13, T15. -/
theorem test_key_event : (onEvent (.setKeyPressed 5 false) { State.reset with status := .waitingKey 0 }
      (fun t => t.status == .waitingKey 0 && !t.getKey 5) &&
    onEvent (.setKeyPressed 5 true) { State.reset with status := .waitingKey 0 }
      (fun t => t.getKey 5 && t.getV 0 == 5 && t.pc == 0x202 && t.status == .running)) = true := by decide

/-- R109: a blocked call of `step()` runs nothing, the press after it lifts the wait; with blocked calls alone
the machine is stuck. -/
theorem test_blocked_call :
    (match step { State.reset with status := .waitingKey 2, inputs := [.step, .setKeyPressed 9 true, .tick] } with
      | .next t => t.getV 2 == 9 && t.pc == 0x202 && t.status == .running && t.inputs == [.tick]
      | .fault _ => false
      | .refused _ => false) = true ∧
    step { State.reset with status := .waitingKey 2, inputs := [.step] } = .fault .keyHold := ⟨by decide, rfl⟩

/-- T2, T3, T7, T14. -/
theorem test_tick : (onEvent .tick { State.reset with dt := 3 } (fun t => t.dt == 2 && t.st == 0) &&
    onEvent .tick { State.reset with st := 1 } (fun t => t.dt == 0 && t.st == 0) &&
    onEvent .tick { State.reset with dt := 5, status := .faulted .outOfBounds } (fun t => t.dt == 5) &&
    onEvent .tick { State.reset with dt := 2, status := .waitingKey 0 } (fun t => t.dt == 1)) = true := by decide

/-- L4 and T18: a reset ends a wait. -/
theorem test_reset : onEvent (.reset [0x60, 0x01]) { st [(1, 1)] 5 with status := .waitingKey 0, mem := [(0x300, 1)] }
    (fun t => t == { State.reset with mem := [(0x200, 0x60), (0x201, 0x01)] }) = true := by decide

/-- L2: one byte too many. -/
theorem test_rom_too_large : (State.load State.reset (List.replicate 3585 1)).1 = .romTooLarge := by
  unfold State.load
  rw [if_pos (by rw [List.length_replicate]; decide)]

/-- The word placed at PC, run from the state, has a record with these deltas. -/
def tracesDeltas (w : Nat) (s : State) (l : List RegisterDelta) : Bool :=
  match (s.withFetchWord 16 w).traceRecord with
  | some r => r.address == s.pc && r.word == BitVec.ofNat 16 w && r.deltas == l
  | none => false

/-- 60 R247, 10 R20: the deltas of 6A9C, FA15, F218 and of a jump. -/
theorem test_trace :
    (tracesDeltas 0x6A9C State.reset [⟨.v 0xA, 0, 0x9C⟩, ⟨.pc, 0x200, 0x202⟩] &&
      tracesDeltas 0xFA15 (st [(10, 3)] 0) [⟨.pc, 0x200, 0x202⟩, ⟨.dt, 0, 3⟩] &&
      tracesDeltas 0xF218 (st [(2, 0x10)] 0) [⟨.pc, 0x200, 0x202⟩, ⟨.st, 0, 0x10⟩] &&
      tracesDeltas 0x1300 State.reset [⟨.pc, 0x200, 0x300⟩]) = true := by decide

/-- The model's choice of log entry 21: RET on an empty stack has a record with no deltas, an unknown word
none. -/
theorem test_trace_of_faults :
    tracesDeltas 0x00EE State.reset [] = true ∧ (State.reset.withFetchWord 16 0x5123).traceRecord = none := by decide

/-! ### Witnesses: states and operands that meet the hypotheses of the statements -/

/-- A ready state with a word placed at PC. -/
def ready (w : Nat) : State := State.reset.withFetchWord 16 w

theorem witness_DecodeOfEncodeIsTheInstruction : (Instr.draw 0xF 0 5).wf none = true ∧ Instr.stop.wf (some 0) = true := by decide

theorem witness_EncodeOfDecodeIsTheWord : decode none 0x83F6 = .ok (.shr 3 0xF) ∧ decode (some 0) 0 = .ok .stop := ⟨rfl, rfl⟩

theorem witness_DecodingIsTotalAndUnambiguous : haltWordOk none = true ∧ haltWordOk (some 0xFFFF) = true := by decide

theorem witness_FetchIsBoundedAndBigEndian :
    4095 ≤ (0x0FFF : Word).toNat ∧ (0x0FFE : Word).toNat ≤ 4094 ∧ 4095 ≤ (0xFFFF : Word).toNat := by decide

theorem witness_RunOneFetchesDecodesAndExecutes :
    State.reset.ready ∧ (ready 0x6A9C).ready ∧ State.ready { State.reset with pc := 0x0FFF } := by decide

theorem witness_StepRunsTheDecodedInstruction :
    (ready 0x6A9C).ready ∧ (ready 0x6A9C).pc.toNat ≤ 4094 ∧ (Instr.ldImm 0xA 0x9C).wf none = true ∧
      decode none (wordOfBytes ((ready 0x6A9C).readByte 0x200) ((ready 0x6A9C).readByte 0x201)) = .ok (.ldImm 0xA 0x9C) :=
  ⟨by decide, by decide, by decide, by rfl⟩

theorem witness_ScheduledStepRunsTheDecodedInstruction :
    ({ ready 0x00E0 with inputs := [.step, .tick] } : State).status = .running ∧ (ready 0x00E0).pc.toNat ≤ 4094 ∧
      Instr.clear.wf none = true ∧
      decode none (wordOfBytes ((ready 0x00E0).readByte 0x200) ((ready 0x00E0).readByte 0x201)) = .ok .clear :=
  ⟨by decide, by decide, by decide, by rfl⟩

theorem witness_StepAtEndOfMemoryFaults :
    State.ready { State.reset with pc := 0x0FFF } ∧ 4095 ≤ (0x0FFF : Word).toNat := by decide

theorem witness_StepOfUnknownWordFaults :
    State.reset.ready ∧ State.reset.pc.toNat ≤ 4094 ∧ illegalWord 0x0000 = true ∧
      (0x0000 : Word) = wordOfBytes (State.reset.readByte 0x200) (State.reset.readByte 0x201) ∧
      State.reset.params.haltWord ≠ some 0x0000 := by decide

/-- A faulted state with no input and one with a scheduled tick, which a step leaves by a next state. -/
theorem witness_FaultedIsLeftByResetAlone :
    State.reset.inputs = [] ∧ onEvent .tick { State.reset with status := .faulted .stackUnderflow } (fun _ => true) = true := by
  decide

theorem witness_FinalStatesAreFrozenUntilReset :
    onEvent (.setKeyPressed 15 true) { State.reset with status := .halted } (fun t => t.getKey 15) = true := by decide

/-- A waiting state with no input, and waiting states that a step leaves by a press, a reset, a tick. -/
theorem witness_KeyWaitHoldsUntilPressOrReset :
    ([Event.setKeyPressed 0 true, .reset [], .tick].all fun e =>
      onEvent e { State.reset with status := .waitingKey 0xF } fun _ => true) = true := by decide

/-- A press at the head of the inputs, and one with a call of `step()` pending before it. -/
theorem witness_KeyPressResolvesTheWait :
    ∃ s u : State, s.status = .waitingKey 0xF ∧ s.schedule = .setKeyPressed (0xF : BitVec 4).toNat true :: [] ∧
      u.status = .waitingKey 0xF ∧ u.inputs = .step :: s.inputs ∧
      u.schedule = .setKeyPressed (0xF : BitVec 4).toNat true :: [] :=
  ⟨{ State.reset with status := .waitingKey 0xF, inputs := [.setKeyPressed 15 true] },
    { State.reset with status := .waitingKey 0xF, inputs := [.step, .setKeyPressed 15 true] }, rfl, rfl, rfl, rfl, rfl⟩

/-- Codes 16 (refused) and 15, a release in a wait and a press while running. -/
theorem witness_OtherKeyEventsWriteOnlyTheLatch :
    15 < 16 ∧ 15 ≤ 15 ∧ ∃ s u : State, s.schedule = [.setKeyPressed 15 false] ∧ s.status = .waitingKey 0 ∧
      u.schedule = [.setKeyPressed 15 true] ∧ ∀ x, u.status ≠ .waitingKey x :=
  ⟨by decide, by decide, { State.reset with status := .waitingKey 0, inputs := [.setKeyPressed 15 false] },
    { State.reset with inputs := [.setKeyPressed 15 true] }, rfl, rfl, rfl, by simp [State.reset]⟩

/-- A scheduled tick in a final status and in a running one. -/
theorem witness_TickCountsBothTimersDown :
    ∃ s u : State, s.schedule = [.tick] ∧ s.final ∧ u.schedule = [.tick] ∧ ¬ u.final :=
  ⟨{ State.reset with status := .halted, inputs := [.tick] }, { State.reset with dt := 1, inputs := [.tick] }, rfl,
    .inl rfl, rfl, by simp [State.final, State.reset]⟩

/-- A reset after a fault, and one in a wait with a call of `step()` pending before it. -/
theorem witness_ResetLeavesTheStatedValues :
    ∃ s u : State, s.schedule = [.reset [0x12, 0x00]] ∧ s.status = .faulted .outOfBounds ∧
      u.schedule = [.reset [0x12, 0x00]] ∧ u.inputs = [.step, .reset [0x12, 0x00]] ∧ u.status = .waitingKey 2 :=
  ⟨{ State.reset with status := .faulted .outOfBounds, inputs := [.reset [0x12, 0x00]] },
    { State.reset with status := .waitingKey 2, inputs := [.step, .reset [0x12, 0x00]] }, rfl, rfl, rfl, rfl, rfl⟩

/-- Two states of one core that the same reset meets. -/
theorem witness_ResetLeavesNoTrace :
    onEvent .tick { State.reset with status := .halted } (fun t => t.status == .halted) = true ∧
    ∃ s u : State, s.params = u.params ∧ s.schedule = [.reset [0x12]] ∧ u.schedule = [.reset [0x12], .tick] ∧ s ≠ u :=
  ⟨by decide, { State.reset with status := .halted, inputs := [.reset [0x12]] },
    { State.reset with dt := 7, inputs := [.reset [0x12], .tick] }, rfl, rfl, rfl, by decide⟩

/-- A wait that a reset meets, a step that begins a wait, and a key event outside a wait. -/
theorem witness_ResetCancelsTheKeyWait :
    (∃ s : State, s.status = .waitingKey 3 ∧ s.schedule = [.reset [], .setKeyPressed (5 : BitVec 4).toNat true]) ∧
    after 0xF30A State.reset (fun t => t.status == .waitingKey 3) = true ∧
    onEvent (.setKeyPressed 5 true) State.reset (fun t => t.getKey 5) = true :=
  ⟨⟨{ State.reset with status := .waitingKey 3, inputs := [.step, .reset [], .setKeyPressed 5 true] }, rfl, rfl⟩,
    by decide, by decide⟩

/-- ROMs of exactly 3584 bytes and of one more. -/
theorem witness_LoadCopiesTheRomOrReportsIt :
    (List.replicate 3584 (1 : Byte)).length ≤ 3584 ∧ 3584 < (List.replicate 3585 (1 : Byte)).length := by
  simp only [List.length_replicate]
  decide

theorem witness_LoadOutsideResetIsRefused :
    illegalWord 0x1200 = false ∧ ∃ s : State, s.schedule = [.load [1]] :=
  ⟨by decide, { State.reset with inputs := [.load [1]] }, rfl⟩

theorem witness_SnapshotChangesNothing : ∃ s : State, s.schedule = [.framebuffer] :=
  ⟨{ State.reset with inputs := [.framebuffer] }, rfl⟩

/-- Each clause: no input, an event outside a wait, calls of `step()` pending before a tick in a wait. -/
theorem witness_StepConsumesOneTransaction :
    State.reset.inputs = [] ∧ (∀ x, State.reset.status ≠ .waitingKey x) ∧
    onEvent .framebuffer State.reset (fun t => t == State.reset) = true ∧
    ∃ s : State, s.status = .waitingKey 1 ∧ s.inputs = List.replicate 2 .step ++ .tick :: [] ∧
      ∃ t, step s = .next t :=
  ⟨rfl, by simp [State.reset], by decide,
    { State.reset with status := .waitingKey 1, inputs := [.step, .step, .tick] }, rfl, rfl, _, rfl⟩

/-- Fifteen frames leave room, sixteen do not. -/
theorem witness_CallPushesAFrameOrOverflows :
    (List.replicate 15 (0 : Nat)).length < 16 ∧ 16 ≤ (List.replicate 16 (0 : Nat)).length := by decide

/-- A CALL and a RET that complete. -/
theorem witness_FramesOnTheStackAreNeverChanged :
    (∃ t, exec (.call 0x300) State.reset = .next t) ∧
      ∃ t, exec .ret { State.reset with stk := [{ v := regs [], i := 0, ret := 0x202 }] } = .next t := ⟨⟨_, rfl⟩, _, rfl⟩

theorem witness_RetRestoresTheFrameOrUnderflows :
    State.reset.stk = [] ∧ ∃ (s : State) (f : Frame), s.stk = f :: [] :=
  ⟨rfl, { State.reset with stk := [{ v := regs [], i := 0, ret := 0 }] }, _, rfl⟩

/-- CALL 0x204 at 0x200 with RET at 0x204. -/
theorem witness_CallThenReturnRoundTrips :
    let s : State := { State.reset with mem := [(0x200, 0x22), (0x201, 0x04), (0x205, 0xEE)] }
    s.ready ∧ s.stk.length < 16 ∧ s.fetchDecode = .ok (.call 0x204) ∧ (0x204 : Addr12).toNat ≤ 4094 ∧
      wordOfBytes (s.readByte 0x204) (s.readByte 0x205) = 0x00EE :=
  ⟨by decide, by decide, by rfl, by decide, by decide⟩

/-- X = VF and X other than VF. -/
theorem witness_AddStoresSumAndCarry : (0 : Reg) ≠ 0xF ∧ (0xE : Reg) ≠ 0xF := by decide

/-- The last I that fits three bytes, and the first that does not. -/
theorem witness_BcdStoresTheDigits : (st [] 0x0FFD).base + 2 < 4096 ∧ 4096 ≤ (st [] 0x0FFE).base + 2 := by decide

theorem witness_RegDumpStoresTheRegisters :
    (st [] 0x0FF0).base + (0xF : Reg).toNat < 4096 ∧ 4096 ≤ (st [] 0x0FF1).base + (0xF : Reg).toNat := by decide

theorem witness_RegLoadLoadsTheRegisters :
    (st [] 0x0FFF).base + (0 : Reg).toNat < 4096 ∧ 4096 ≤ (st [] 0x1000).base + (0 : Reg).toNat := by decide

theorem witness_DumpThenLoadRoundTrips :
    ∃ s t u : State, s.base + (0xF : Reg).toNat < 4096 ∧ exec (.regDump 0xF) s = .next t ∧ u.i = t.i ∧
      ∀ a, u.readByte a = t.readByte a :=
  ⟨st [] 0x0FF0, _, _, by decide, rfl, rfl, fun _ => rfl⟩

theorem witness_LoadReturnsTheLatestStore :
    ∃ t, State.reset.storeBytes 0x0FFE [1, 2] = .ok t ∧ ∃ t', State.reset.storeBytes 0xFFFF [] = .ok t' :=
  ⟨_, rfl, _, rfl⟩

theorem witness_FetchSeesTheStoredWord :
    ∃ t, State.reset.storeBytes State.reset.pc.toNat [wordHi 0x6299, wordLo 0x6299] = .ok t := ⟨_, rfl⟩

/-- PC stays at 4094, and moves to 0x200 from 4095. -/
theorem witness_PlacedWordIsFetched :
    (State.withFetchWord { State.reset with pc := 0x0FFE } 16 0x00E0).pc = 0x0FFE ∧
      (State.withFetchWord { State.reset with pc := 0x0FFF } 16 0x00E0).pc = 0x200 := by decide

/-- N = 0 anywhere, the last I that fits one byte, and the first that does not. -/
theorem witness_DrawXorsTheClippedSprite :
    (0 : Nibble).toNat = 0 ∧ (st [] 0x0FFF).base + (1 : Nibble).toNat - 1 < 4096 ∧
      0 < (1 : Nibble).toNat ∧ 4096 ≤ (st [] 0x1000).base + (1 : Nibble).toNat - 1 := by decide

/-- X = Y = V0, so that VF is no coordinate, on a grid that is unlit. -/
theorem witness_DrawingTwiceRestores :
    ∃ s t : State, s.base + (1 : Nibble).toNat - 1 < 4096 ∧ exec (.draw 0 0 1) s = .next t ∧
      (t.getV 0).toNat % 64 = (s.getV 0).toNat % 64 ∧ (t.getV 0).toNat % 32 = (s.getV 0).toNat % 32 ∧
      (∀ r c, r < 32 → c < 64 → s.fb.cell r c = false) :=
  ⟨st [] 0x050, _, by decide, rfl, by decide, by decide, fun r c hr _ => by
    simp [FrameBuffer.cell, st, State.reset, hr]⟩

/-- A completing and a faulting instruction. -/
theorem witness_InstructionsArePrecise :
    (∃ t, exec .clear State.reset = .next t) ∧ ∃ t, exec .ret State.reset = .next t := ⟨⟨_, rfl⟩, _, rfl⟩

theorem witness_InstructionsRaiseTheirOwnFaults :
    State.reset.status = .running ∧ Instr.ownFault .ret State.reset .stackUnderflow = true := by decide

theorem witness_OnlyTheListedWritersChangeARegister :
    (∃ t, exec (.add 1 2) State.reset = .next t) ∧ Instr.writesReg 3 (.add 1 2) = false := ⟨⟨_, rfl⟩, by decide⟩

theorem witness_OnlyStoresChangeMemory :
    after 0xF055 (st [(0, 1)] 0x300) (fun t => t.readByte 0x300 != (st [(0, 1)] 0x300).readByte 0x300) = true := by decide

theorem witness_OnlyTheirInstructionsReachMemoryFramebufferAndStack :
    (∃ t, exec (.jp 0x300) State.reset = .next t) ∧ (Instr.jp 0x300).access State.reset = none ∧
      Instr.jp 0x300 ≠ .clear ∧ (∀ x y n, Instr.jp 0x300 ≠ .draw x y n) ∧ Instr.jp 0x300 ≠ .ret ∧
      ∀ nnn, Instr.jp 0x300 ≠ .call nnn := ⟨⟨_, rfl⟩, rfl, by simp, by simp, by simp, by simp⟩

theorem witness_OnlyKeySkipsReadTheLatch :
    (∀ x, Instr.clear ≠ .skipIfPressed x) ∧ (∀ x, Instr.clear ≠ .skipIfNotPressed x) ∧
      ∃ t, exec .clear State.reset = .next t := ⟨by simp, by simp, _, rfl⟩

theorem witness_NoInstructionReadsTheSoundTimer :
    (∀ x, Instr.ldVxDt 1 ≠ .ldStVx x) ∧ ∃ t, exec (.ldVxDt 1) State.reset = .next t := ⟨by simp, _, rfl⟩

theorem witness_NoStepChangesTheParameters : ∃ t, step State.reset = .next t := ⟨_, rfl⟩

theorem witness_InvariantHoldsAtReset : ∃ t, State.construct Config.Params.default [0x12, 0x00] = .next t := ⟨_, rfl⟩

theorem witness_EveryStepKeepsTheInvariant : State.reset.Inv ∧ ∃ t, step State.reset = .next t :=
  ⟨by decide, _, rfl⟩

end Sys2Proof.Tests
end

section
/-! PROOFS. The two outcomes of each of the six Execute arms that can fault, said once: completed under its
condition, or the fault taken from the state it began in. Every other arm answers its next state outright. -/

namespace Sys2Proof.Machine

variable (s : State)

/-- RET: the top frame restored, or StackUnderflow (41 R121). -/
theorem exec_ret_cases :
    (∃ f rest, s.stk = f :: rest ∧
        exec .ret s = .next { s with v := f.v, i := f.i, pc := f.ret, stk := rest }) ∨
      (s.stk = [] ∧ exec .ret s = .next (s.raise .stackUnderflow)) := by
  rcases s.popRestore_cases with ⟨f, rest, hs, hp⟩ | ⟨hs, hp⟩
  · exact .inl ⟨f, rest, hs, by simp [exec, execRet, hp]⟩
  · exact .inr ⟨hs, by simp [exec, execRet, hp]⟩

/-- CALL: one frame more and the jump, or StackOverflow (41 R123). -/
theorem exec_call_cases (nnn : Addr12) :
    (s.stk.length < 16 ∧
        exec (.call nnn) s =
          .next { s with stk := { v := s.v, i := s.i, ret := s.pc + 2 } :: s.stk, pc := zextAddr nnn }) ∨
      (16 ≤ s.stk.length ∧ exec (.call nnn) s = .next (s.raise .stackOverflow)) := by
  rcases s.push_cases (s.pc + 2) with ⟨hs, hp⟩ | ⟨hs, hp⟩
  · exact .inl ⟨hs, by simp only [exec, execCall, hp, except_map_ok, State.finish_ok]⟩
  · exact .inr ⟨hs, by simp only [exec, execCall, hp, except_map_error, State.finish_error]⟩

/-- DRAW: the sprite at I blitted, or OutOfBounds (44 R191, R193). -/
theorem exec_draw_cases (x y : Reg) (n : Nibble) :
    (accessOk s.base n.toNat = true ∧
        exec (.draw x y n) s =
          .next (s.blit x y ((List.range n.toNat).map fun k => s.readByte (s.base + k))).advance) ∨
      (accessOk s.base n.toNat = false ∧ exec (.draw x y n) s = .next (s.raise .outOfBounds)) := by
  rcases s.loadBytes_cases s.base n.toNat with ⟨ha, hl⟩ | ⟨ha, hl⟩
  · exact .inl ⟨ha, by simp [exec, execDraw, hl]⟩
  · exact .inr ⟨ha, by simp [exec, execDraw, hl]⟩

/-- BCD: the three digits stored at I, or OutOfBounds (43 R173). -/
theorem exec_bcd_cases (x : Reg) :
    (accessOk s.base 3 = true ∧
        exec (.bcd x) s =
          .next { s with mem := Memory.writeBytes s.params.font s.mem s.base (bcdDigits (s.getV x)) }.advance) ∨
      (accessOk s.base 3 = false ∧ exec (.bcd x) s = .next (s.raise .outOfBounds)) := by
  rcases s.storeBytes_cases s.base (bcdDigits (s.getV x)) with ⟨ha, hs⟩ | ⟨ha, hs⟩
  · exact .inl ⟨ha, by simp [exec, execBcd, hs]⟩
  · exact .inr ⟨ha, by simp [exec, execBcd, hs]⟩

/-- REG_DUMP: V0..VX stored at I, or OutOfBounds (43 R174). -/
theorem exec_regDump_cases (x : Reg) :
    (accessOk s.base (x.toNat + 1) = true ∧
        exec (.regDump x) s =
          .next { s with mem := Memory.writeBytes s.params.font s.mem s.base (s.getVs x) }.advance) ∨
      (accessOk s.base (x.toNat + 1) = false ∧ exec (.regDump x) s = .next (s.raise .outOfBounds)) := by
  rw [← s.length_getVs x]
  rcases s.storeBytes_cases s.base (s.getVs x) with ⟨ha, hs⟩ | ⟨ha, hs⟩
  · exact .inl ⟨ha, by simp [exec, execRegDump, hs]⟩
  · exact .inr ⟨ha, by simp [exec, execRegDump, hs]⟩

/-- REG_LOAD: V0..VX loaded from I, or OutOfBounds (43 R175). -/
theorem exec_regLoad_cases (x : Reg) :
    (accessOk s.base (x.toNat + 1) = true ∧
        exec (.regLoad x) s =
          .next (s.setVs 0 ((List.range (x.toNat + 1)).map fun k => s.readByte (s.base + k))).advance) ∨
      (accessOk s.base (x.toNat + 1) = false ∧ exec (.regLoad x) s = .next (s.raise .outOfBounds)) := by
  rcases s.loadBytes_cases s.base (x.toNat + 1) with ⟨ha, hl⟩ | ⟨ha, hl⟩
  · exact .inl ⟨ha, by simp [exec, execRegLoad, hl]⟩
  · exact .inr ⟨ha, by simp [exec, execRegLoad, hl]⟩

/-! ### Registers through the compound writes -/

/-- A sprite drawn writes VF alone of the registers (44 R191). -/
theorem State.getV_blit_of_ne {r : Reg} (hr : r ≠ flagReg) (x y : Reg) (sprite : List Byte) :
    (s.blit x y sprite).getV r = s.getV r := by
  rw [State.blit, State.getV_setV, if_neg hr]
  exact State.getV_eq rfl r

/-- A run of register writes from V0 leaves the registers after the last one. -/
theorem State.getV_setVs_of_length_le {r : Reg} {bs : List Byte} (h : bs.length ≤ r.toNat) :
    (s.setVs 0 bs).getV r = s.getV r := by
  rw [State.getV_setVs _ _ _ (by omega), if_neg (by omega)]

end Sys2Proof.Machine
end

section
/-! PROOFS. 10_state.md R35: a frame on the stack is a copy. -/

namespace Sys2Proof.Machine

/-- Only RET and CALL touch the call stack (10 R28). -/
theorem exec_keeps_stk {i : Instr} {s t : State} (hret : i ≠ .ret) (hcall : ∀ nnn, i ≠ .call nnn)
    (h : exec i s = .next t) : t.stk = s.stk := by
  cases i with
  | ret => exact absurd rfl hret
  | call nnn => exact absurd rfl (hcall nnn)
  | draw x y n => rcases exec_draw_cases s x y n with ⟨-, he⟩ | ⟨-, he⟩ <;> cases he.symm.trans h <;> rfl
  | bcd x => rcases exec_bcd_cases s x with ⟨-, he⟩ | ⟨-, he⟩ <;> cases he.symm.trans h <;> rfl
  | regDump x => rcases exec_regDump_cases s x with ⟨-, he⟩ | ⟨-, he⟩ <;> cases he.symm.trans h <;> rfl
  | regLoad x => rcases exec_regLoad_cases s x with ⟨-, he⟩ | ⟨-, he⟩ <;> cases he.symm.trans h <;> simp
  | _ => cases h; rfl

/-- Settles O31: RET drops the top frame, CALL adds one, and no other instruction touches STK; a fault leaves it. -/
theorem framesOnTheStackAreNeverChanged : Obligations.FramesOnTheStackAreNeverChanged := by
  intro i s t h
  by_cases hret : i = .ret
  · subst hret
    rcases exec_ret_cases s with ⟨f, rest, hs, he⟩ | ⟨-, he⟩ <;> cases he.symm.trans h
    · exact .inr (.inl ⟨rfl, by simp [hs]⟩)
    · exact .inl rfl
  by_cases hcall : ∃ nnn, i = .call nnn
  · obtain ⟨nnn, rfl⟩ := hcall
    rcases exec_call_cases s nnn with ⟨-, he⟩ | ⟨-, he⟩ <;> cases he.symm.trans h
    · exact .inr (.inr ⟨nnn, rfl, rfl⟩)
    · exact .inl rfl
  exact .inl (exec_keeps_stk hret (fun nnn hi => hcall ⟨nnn, hi⟩) h)

end Sys2Proof.Machine
end

section
/-! PROOFS. 10_state.md R22: the writers of the general registers. -/

namespace Sys2Proof.Machine

/-- Settles O53, arm by arm: an arm writes V[x], V[x] and then VF, a run from V0, or no register. -/
theorem onlyTheListedWritersChangeARegister : Obligations.OnlyTheListedWritersChangeARegister := by
  intro i s t r h hr
  cases i with
  | ret => simp [Instr.writesReg] at hr
  | call nnn => rcases exec_call_cases s nnn with ⟨-, he⟩ | ⟨-, he⟩ <;> cases he.symm.trans h <;> rfl
  | bcd x => rcases exec_bcd_cases s x with ⟨-, he⟩ | ⟨-, he⟩ <;> cases he.symm.trans h <;> rfl
  | regDump x => rcases exec_regDump_cases s x with ⟨-, he⟩ | ⟨-, he⟩ <;> cases he.symm.trans h <;> rfl
  | regLoad x =>
    have hx : x.toNat < r.toNat := by simpa [Instr.writesReg] using hr
    rcases exec_regLoad_cases s x with ⟨-, he⟩ | ⟨-, he⟩ <;> cases he.symm.trans h
    · exact s.getV_setVs_of_length_le (by simpa using hx)
    · rfl
  | draw x y n =>
    have hf : r ≠ flagReg := by simpa [Instr.writesReg] using hr
    rcases exec_draw_cases s x y n with ⟨-, he⟩ | ⟨-, he⟩ <;> cases he.symm.trans h
    · exact s.getV_blit_of_ne hf x y _
    · rfl
  | add x y | sub x y | shr x y | subn x y | shl x y =>
    obtain ⟨hx, hf⟩ : r ≠ x ∧ r ≠ flagReg := by simpa [Instr.writesReg] using hr
    cases h
    rw [State.getV_advance, State.getV_setResultFlag, if_neg hf, if_neg hx]
  | ldImm x _ | addImm x _ | ldReg x _ | or x _ | and x _ | xor x _ | rand x _ | ldVxDt x =>
    have hx : r ≠ x := by simpa [Instr.writesReg] using hr
    cases h
    simp [hx]
  | _ => cases h; exact State.getV_eq rfl r

end Sys2Proof.Machine
end

section
/-! PROOFS. 20_memory.md R58, R62, R65: what a store leaves to be loaded and fetched, and the bound of a fetch. -/

namespace Sys2Proof.Machine

variable {s t : State} {base : Nat} {bs : List Byte}

/-- A store that succeeds has every byte inside the memory and writes the bytes, nothing else (20 R54, R56). -/
theorem State.storeBytes_eq_ok :
    s.storeBytes base bs = .ok t ↔
      accessOk base bs.length = true ∧ t = { s with mem := Memory.writeBytes s.params.font s.mem base bs } := by
  rcases s.storeBytes_cases base bs with ⟨ha, hs⟩ | ⟨ha, hs⟩ <;> simp [ha, hs, eq_comm]

/-- Byte `k` of a store that succeeds is what its address reads as afterwards. -/
theorem State.readByte_storeBytes_getElem (h : s.storeBytes base bs = .ok t) {k : Nat} (hk : k < bs.length) :
    t.readByte (base + k) = bs[k] := by
  obtain ⟨-, rfl⟩ := State.storeBytes_eq_ok.1 h
  rw [State.readByte_writeBytes, if_pos (by omega), Nat.add_sub_cancel_left, List.getElem?_eq_getElem hk,
    Option.getD_some]

/-- A store keeps every byte outside those it stores. -/
theorem State.storeBytes_keepsBytesOutside (h : s.storeBytes base bs = .ok t) :
    s.keepsBytesOutside t base bs.length := by
  obtain ⟨-, rfl⟩ := State.storeBytes_eq_ok.1 h
  intro a ha
  rw [State.readByte_writeBytes, if_neg (by omega)]

/-- A store changes no piece of state but memory. -/
theorem State.storeBytes_changesOnly_mem (h : s.storeBytes base bs = .ok t) : s.changesOnly t [.mem] := by
  obtain ⟨-, rfl⟩ := State.storeBytes_eq_ok.1 h
  intro f hf
  cases f with
  | mem => simp at hf
  | v => exact State.getV_eq rfl
  | _ => rfl

/-- A load where a store succeeded returns the bytes stored. -/
theorem State.loadBytes_of_storeBytes (h : s.storeBytes base bs = .ok t) :
    t.loadBytes base bs.length = .ok bs := by
  have hok : accessOk base bs.length = true := (State.storeBytes_eq_ok.1 h).1
  have hread : (List.range bs.length).map (fun k => t.readByte (base + k)) = bs :=
    List.ext_getElem (by simp) fun k _ hk => by simp [State.readByte_storeBytes_getElem h hk]
  rcases t.loadBytes_cases base bs.length with ⟨-, hl⟩ | ⟨hfail, -⟩
  · rw [hl, hread]
  · simp [hok] at hfail

/-- Settles O43. -/
theorem loadReturnsTheLatestStore : Obligations.LoadReturnsTheLatestStore := fun _ _ _ _ h =>
  ⟨State.loadBytes_of_storeBytes h, State.storeBytes_keepsBytesOutside h, State.storeBytes_changesOnly_mem h⟩

/-- Settles O7, by the two outcomes of a fetch; the word's number is its high byte times 256 plus its low one. -/
theorem fetchIsBoundedAndBigEndian : Obligations.FetchIsBoundedAndBigEndian := by
  intro s
  rcases s.fetch_cases with ⟨hpc, hf⟩ | ⟨hpc, hf⟩
  · exact ⟨fun h => by omega, fun _ => ⟨_, hf, wordOfBytes_toNat _ _⟩⟩
  · exact ⟨fun _ => hf, fun h => by omega⟩

/-- Settles O44: the store's check leaves room for the fetch, and the two bytes it left put the word together. -/
theorem fetchSeesTheStoredWord : Obligations.FetchSeesTheStoredWord := by
  intro s t w h
  have hpc : t.pc = s.pc := State.storeBytes_changesOnly_mem h .pc (by decide)
  have hhi : t.readByte s.pc.toNat = wordHi w := State.readByte_storeBytes_getElem h (k := 0) (by simp)
  have hlo : t.readByte (s.pc.toNat + 1) = wordLo w := State.readByte_storeBytes_getElem h (k := 1) (by simp)
  have hroom : s.pc.toNat + 2 ≤ 4096 := by
    simpa [accessOk_iff, Config.memSize] using (State.storeBytes_eq_ok.1 h).1
  rcases t.fetch_cases with ⟨-, hf⟩ | ⟨hout, -⟩
  · rw [hf, hpc, hhi, hlo, wordOfBytes_hi_lo]
  · rw [hpc] at hout
    omega

end Sys2Proof.Machine
end

section
/-! PROOFS. 30_encoding.md sections 1 and 2: decoding and encoding undo each other on the fixed rows, STOP's word is
none of theirs, and a word matches at most one row of the opcode table. -/

namespace Sys2Proof

/-! ### Encode, then decode -/

theorem decodeRow_encode (h : Option Word) {i : Instr} (hi : i ≠ .stop) : decodeRow (encode h i) = some i := by
  cases i with
  | stop => exact absurd rfl hi
  | clear | ret => simp only [encode]; decide
  | skipIfPressed _ | skipIfNotPressed _ => simp [encode, decodeRow, decodeClassE]
  | ldVxDt _ | waitKey _ | ldDtVx _ | ldStVx _ | addI _ | ldF _ | bcd _ | regDump _ | regLoad _ =>
    simp [encode, decodeRow, decodeClassF]
  | ldReg _ _ | or _ _ | and _ _ | xor _ _ | add _ _ | sub _ _ | shr _ _ | subn _ _ | shl _ _ =>
    simp [encode, decodeRow, decodeClass8]
  | _ => simp [encode, decodeRow]

theorem decode_encode (h : Option Word) {i : Instr} (hi : i ≠ .stop) : decode h (encode h i) = .ok i := by
  simp [decode, decodeRow_encode h hi]

/-! ### A decoded word is put together again, format by format (30 R81) -/

section
variable {w : Word} {c : BitVec 4} (hc : fieldClass w = c)
include hc

theorem append_fieldNNN : c ++ fieldNNN w = w := by rw [← hc, ← word_eq_nnn]

theorem append_fieldX_of_nn {nn : Byte} (hnn : fieldNN w = nn) : c ++ fieldX w ++ nn = w := by
  rw [← hc, ← hnn, ← word_eq_xnn]

theorem append_fieldX_fieldY_of_n {n : Nibble} (hn : fieldN w = n) : c ++ fieldX w ++ fieldY w ++ n = w := by
  rw [← hc, ← hn, ← word_eq_xyn]

end

section
variable (h : Option Word) {w : Word} {i : Instr}

theorem encode_of_decodeClass0 (hc : fieldClass w = 0x0#4) (hw : decodeClass0 w = some i) : encode h i = w := by
  unfold decodeClass0 at hw
  split at hw <;> cases hw
  all_goals
    next hnnn =>
      rw [← append_fieldNNN hc, hnnn]
      rfl

theorem encode_of_decodeClass8 (hc : fieldClass w = 0x8#4) (hw : decodeClass8 w = some i) : encode h i = w := by
  unfold decodeClass8 at hw
  split at hw <;> cases hw <;> exact append_fieldX_fieldY_of_n hc ‹_›

theorem encode_of_decodeClassE (hc : fieldClass w = 0xE#4) (hw : decodeClassE w = some i) : encode h i = w := by
  unfold decodeClassE at hw
  split at hw <;> cases hw <;> exact append_fieldX_of_nn hc ‹_›

theorem encode_of_decodeClassF (hc : fieldClass w = 0xF#4) (hw : decodeClassF w = some i) : encode h i = w := by
  unfold decodeClassF at hw
  split at hw <;> cases hw <;> exact append_fieldX_of_nn hc ‹_›

/-- By the class: goal `h_(k+1)` is class `k`, and `h_17` no class. -/
theorem encode_of_decodeRow (hw : decodeRow w = some i) : encode h i = w := by
  unfold decodeRow at hw
  split at hw
  case h_1 hc => exact encode_of_decodeClass0 h hc hw
  case h_9 hc => exact encode_of_decodeClass8 h hc hw
  case h_15 hc => exact encode_of_decodeClassE h hc hw
  case h_16 hc => exact encode_of_decodeClassF h hc hw
  case h_2 hc | h_3 hc | h_11 hc | h_12 hc => cases hw; exact append_fieldNNN hc
  case h_4 hc | h_5 hc | h_7 hc | h_8 hc | h_13 hc => cases hw; exact append_fieldX_of_nn hc rfl
  case h_6 hc | h_10 hc =>
    split at hw
    next hn => cases hw; exact append_fieldX_fieldY_of_n hc hn
    next => cases hw
  case h_14 hc => cases hw; exact append_fieldX_fieldY_of_n hc rfl
  case h_17 => cases hw

/-- No fixed row is STOP's: one word cannot be STOP's encoding on two machines. -/
theorem ne_stop_of_decodeRow (hw : decodeRow w = some i) : i ≠ .stop := by
  rintro rfl
  have h01 : (0 : Word) = 1 := (encode_of_decodeRow (some 0) hw).trans (encode_of_decodeRow (some 1) hw).symm
  exact absurd h01 (by decide)

end

/-! ### The illegal words and the halt word (30 R85, R87) -/

section
variable (w : Word)

theorem toNat_div_4096 : w.toNat / 4096 = (fieldClass w).toNat := by
  simp [fieldClass, Nat.shiftRight_eq_div_pow]
  omega

theorem toNat_mod_256 : w.toNat % 256 = (fieldNN w).toNat := by simp [fieldNN]

theorem toNat_mod_16 : w.toNat % 16 = (fieldN w).toNat := by simp [fieldN]

end

theorem illegalWord_encode (h : Option Word) {i : Instr} (hi : i ≠ .stop) : illegalWord (encode h i) = false := by
  cases i with
  | stop => exact absurd rfl hi
  | clear | ret => simp only [encode]; decide
  | _ =>
    simp only [illegalWord, encode, toNat_div_4096, toNat_mod_16, toNat_mod_256]
    simp

theorem decodeRow_of_illegalWord {w : Word} (hw : illegalWord w = true) : decodeRow w = none := by
  by_contra hne
  obtain ⟨i, hi⟩ := Option.ne_none_iff_exists'.1 hne
  have hlegal := illegalWord_encode none (ne_stop_of_decodeRow hi)
  rw [encode_of_decodeRow none hi, hw] at hlegal
  cases hlegal

theorem decode_haltWord {w : Word} (hw : illegalWord w = true) : decode (some w) w = .ok .stop := by
  simp [decode, decodeRow_of_illegalWord hw]

/-- Settles O2: the fixed rows format by format, and STOP's word because it is an illegal one. -/
theorem decodeOfEncodeIsTheInstruction : Obligations.DecodeOfEncodeIsTheInstruction := by
  intro h i hwf
  by_cases hi : i = .stop
  · subst hi
    cases h with
    | none => cases hwf
    | some w => exact decode_haltWord hwf
  · exact decode_encode h hi

/-- Settles O3: a fixed row's fields put the word together again, and STOP's encoding is the halt word. -/
theorem encodeOfDecodeIsTheWord : Obligations.EncodeOfDecodeIsTheWord := by
  intro h w i hd
  rcases decode_cases h w with ⟨i', hrow, hd'⟩ | ⟨-, rfl, hd'⟩ | ⟨-, -, hd'⟩ <;> cases hd'.symm.trans hd
  · exact encode_of_decodeRow h hrow
  · rfl

/-- Settles O1. -/
theorem writtenOutWordsDecode : Obligations.WrittenOutWordsDecode :=
  ⟨rfl, rfl, rfl, rfl, rfl, rfl, rfl, rfl, rfl, rfl, rfl, rfl, rfl, rfl⟩

/-- Settles O6: 8XY6 and 8XYE are the encodings of SHR and SHL, whose arms take no Y. -/
theorem shiftsIgnoreTheYField : Obligations.ShiftsIgnoreTheYField := fun h x y _ _ =>
  ⟨decode_encode h (i := .shr x y) (by simp), rfl, decode_encode h (i := .shl x y) (by simp), rfl⟩

end Sys2Proof
end

section
/-! PROOFS. 30_encoding.md R88: the rows of the opcode table that a word matches. -/

namespace Sys2Proof

open Laws.FixedBits

/-! ### The bits that choose the row -/

/-- The bits of a word of class `c` that choose its row: the class, with N, NN or all of the word where 30 R84 splits
the class. -/
def selectMask (c : BitVec 4) : Word :=
  match c with
  | 0x0#4 => 0xFFFF
  | 0x5#4 | 0x8#4 | 0x9#4 => 0xF00F
  | 0xE#4 | 0xF#4 => 0xF0FF
  | _ => 0xF000

theorem selectMask_and_class : ∀ c : BitVec 4, selectMask c &&& 0xF000 = 0xF000 := by decide

theorem opcodeRows_mask : ∀ r ∈ opcodeRows, r.mask = selectMask (fieldClass r.value) := by decide

theorem opcodeRows_value_and_mask : ∀ r ∈ opcodeRows, r.value &&& r.mask = r.value := by decide

theorem decodeRow_value : ∀ r ∈ opcodeRows, (decodeRow r.value).map Instr.mnemonic = some r.mnemonic := by decide

section
variable (w : Word)

theorem fieldClass_and : fieldClass (w &&& 0xF000) = fieldClass w := by
  rw [word_eq_nnn w, mask_nnn, fieldClass_nnn, fieldClass_nnn]

theorem fieldN_and : fieldN (w &&& 0xF00F) = fieldN w := by
  rw [word_eq_xyn w, mask_xyn_sub, fieldN_xyn, fieldN_xyn]

theorem fieldNN_and : fieldNN (w &&& 0xF0FF) = fieldNN w := by
  rw [word_eq_xnn w, mask_xsub, fieldNN_xnn, fieldNN_xnn]

end

section
variable {w v : Word} (h : w &&& selectMask (fieldClass v) = v &&& selectMask (fieldClass v))
include h

theorem fieldClass_eq_of_select : fieldClass w = fieldClass v := by
  have hand : w &&& 0xF000 = v &&& 0xF000 := by
    rw [← selectMask_and_class (fieldClass v), ← BitVec.and_assoc, h, BitVec.and_assoc]
  rw [← fieldClass_and w, hand, fieldClass_and]

/-- Words with the same selecting bits decode to the same row; goal `h_(k+1)` is class `k`, and `h_17` no class. -/
theorem mnemonic_decodeRow_congr : (decodeRow w).map Instr.mnemonic = (decodeRow v).map Instr.mnemonic := by
  have hc := fieldClass_eq_of_select h
  unfold decodeRow
  rw [hc]
  split
  case h_1 hk =>
    rw [hk] at h
    have hw : w = v := BitVec.and_allOnes.symm.trans (h.trans BitVec.and_allOnes)
    rw [hw]
  case h_6 hk | h_9 hk | h_10 hk =>
    rw [hk] at h
    have hn : fieldN w = fieldN v := by simpa only [selectMask, fieldN_and] using congrArg fieldN h
    simp only [decodeClass8, hn]
    split <;> rfl
  case h_15 hk | h_16 hk =>
    rw [hk] at h
    have hnn : fieldNN w = fieldNN v := by simpa only [selectMask, fieldNN_and] using congrArg fieldNN h
    simp only [decodeClassE, decodeClassF, hnn]
    split <;> rfl
  all_goals rfl

end

theorem decodeRow_of_matches {w : Word} {r : OpcodeRow} (hr : r ∈ opcodeRows) (hm : r.matches w = true) :
    (decodeRow w).map Instr.mnemonic = some r.mnemonic := by
  have hv : w &&& r.mask = r.value &&& r.mask := (beq_iff_eq.1 hm).trans (opcodeRows_value_and_mask r hr).symm
  rw [opcodeRows_mask r hr] at hv
  rw [mnemonic_decodeRow_congr hv, decodeRow_value r hr]

/-! ### The decoded instruction's row matches -/

theorem Laws.FixedBits.statement (i : Instr) : Statement i := by
  cases i
  exacts [clear, ret, jp _, call _, seImm _ _, sneImm _ _, seReg _ _, ldImm _ _, addImm _ _, ldReg _ _, or _ _,
    and _ _, xor _ _, add _ _, sub _ _, shr _ _, subn _ _, shl _ _, sneReg _ _, ldI _, jpV0 _, rand _ _, draw _ _ _,
    skipIfPressed _, skipIfNotPressed _, ldVxDt _, waitKey _, ldDtVx _, ldStVx _, addI _, ldF _, bcd _, regDump _,
    regLoad _, stop]

theorem exists_row_matches_encode (h : Option Word) {i : Instr} (hi : i ≠ .stop) :
    ∃ r ∈ opcodeRows, r.matches (encode h i) = true ∧ r.mnemonic = i.mnemonic := by
  have hstmt := statement i h
  cases hr : row i with
  | none =>
    rw [hr] at hstmt
    exact absurd hstmt.1 hi
  | some r =>
    rw [hr] at hstmt
    have hname : (r.mnemonic == i.mnemonic) = true :=
      List.find?_some (p := fun r' : OpcodeRow => r'.mnemonic == i.mnemonic) hr
    exact ⟨r, List.mem_of_find?_eq_some hr, hstmt, beq_iff_eq.1 hname⟩

theorem exists_matching_row_iff {w : Word} {m : String} :
    (∃ r ∈ opcodeRows, r.matches w = true ∧ r.mnemonic = m) ↔ (decodeRow w).map Instr.mnemonic = some m := by
  constructor
  · rintro ⟨r, hr, hm, rfl⟩
    exact decodeRow_of_matches hr hm
  · intro hm
    obtain ⟨i, hi, rfl⟩ := Option.map_eq_some_iff.1 hm
    rw [← encode_of_decodeRow none hi]
    exact exists_row_matches_encode none (ne_stop_of_decodeRow hi)

/-! ### Exactly one row -/

/-- The table names no mnemonic twice, so one mnemonic among the matching rows means one row. -/
theorem mnemonics_of_matching_rows (w : Word) :
    (opcodeRows.filter fun r => r.matches w).map OpcodeRow.mnemonic =
      ((decodeRow w).map Instr.mnemonic).toList := by
  have hmem (m : String) : m ∈ (opcodeRows.filter fun r => r.matches w).map OpcodeRow.mnemonic ↔
      (decodeRow w).map Instr.mnemonic = some m := by
    rw [← exists_matching_row_iff]
    simp [and_assoc]
  cases hd : (decodeRow w).map Instr.mnemonic with
  | none => exact List.eq_nil_iff_forall_not_mem.2 fun m => by simp [hmem, hd]
  | some m =>
    have hnodup : (opcodeRows.map OpcodeRow.mnemonic).Nodup := by decide
    have hsub := hnodup.sublist ((List.filter_sublist (p := fun r => r.matches w)).map OpcodeRow.mnemonic)
    refine List.perm_singleton.1 ((List.perm_ext_iff_of_nodup hsub (List.nodup_singleton m)).2 fun a => ?_)
    simp [hmem, hd, eq_comm]

/-- Settles O4: the matching rows are the decoder's fixed row, and an admitted halt word has none. -/
theorem decodingIsTotalAndUnambiguous : Obligations.DecodingIsTotalAndUnambiguous := by
  intro h w hok
  rw [mnemonics_of_matching_rows]
  rcases decode_cases h w with ⟨i, hrow, hd⟩ | ⟨hrow, rfl, hd⟩ | ⟨hrow, hne, hd⟩
  · have hne : h ≠ some w := by
      rintro rfl
      rw [decodeRow_of_illegalWord hok] at hrow
      cases hrow
    simp [hrow, hd, hne]
  · simp [hrow, hd, Instr.mnemonic]
  · simp [hrow, hd, hne]

end Sys2Proof
end

section
/-! PROOFS. 40_executor.md R100, R101: one `step()` in Running. -/

namespace Sys2Proof.Machine

variable {s : State}

/-- With nothing scheduled, a step in Running is `RunOne` (40 R100). -/
theorem step_of_ready (h : s.ready) : step s = s.runOne := by
  obtain ⟨hrun, hnil⟩ := h
  rw [step_nil hnil]
  simp only [State.stepCall, hrun]

theorem State.runOne_of_fetchDecode_ok {i : Instr} (h : s.fetchDecode = .ok i) : s.runOne = exec i s := by
  simp only [State.runOne, h]

theorem State.runOne_of_fetchDecode_error {r : Reason} (h : s.fetchDecode = .error r) :
    s.runOne = .next (s.raise r) := by
  simp only [State.runOne, h]

/-- Settles O8, by the outcomes of fetch and decode: out of bounds, an instruction, an unknown word. -/
theorem runOneFetchesDecodesAndExecutes : Obligations.RunOneFetchesDecodesAndExecutes := by
  intro s hready
  rw [step_of_ready hready]
  rcases s.fetchDecode_cases with ⟨hpc, hf⟩ | ⟨hpc, w, rfl, ⟨i, hd, hf⟩ | ⟨hd, hf⟩⟩
  · rw [State.runOne_of_fetchDecode_error hf, if_pos hpc]
    rfl
  · rw [State.runOne_of_fetchDecode_ok hf, if_neg (by omega)]
    simp only [hd]
  · rw [State.runOne_of_fetchDecode_error hf, if_neg (by omega)]
    simp only [hd]
    rfl

/-- Settles O9, from O8: PC is in bounds and the word decodes. -/
theorem stepRunsTheDecodedInstruction : Obligations.StepRunsTheDecodedInstruction := by
  intro s i hready hpc _ hd
  rw [runOneFetchesDecodesAndExecutes s hready, if_neg (by omega)]
  simp only [hd]

end Sys2Proof.Machine
end

section
/-! PROOFS. 41_control_flow.md: the targets of jumps and skips, and CALL and RET on the call stack. -/

namespace Sys2Proof.Machine

variable (s : State)

/-! ### What control flow leaves unchanged -/

/-- The frame of every control-flow instruction: V, I, PC and STK are the pieces it can write, and each that is not
named keeps its value. -/
theorem State.changesOnly_of_controlWrites {v : Regs} {i pc : Word} {stk : List Frame} {fs : List Field}
    (hv : .v ∈ fs ∨ v = s.v) (hi : .i ∈ fs ∨ i = s.i) (hpc : .pc ∈ fs ∨ pc = s.pc)
    (hstk : .stk ∈ fs ∨ stk = s.stk) : s.changesOnly { s with v := v, i := i, pc := pc, stk := stk } fs := by
  intro f hf
  cases f with
  | v => exact State.getV_eq (hv.resolve_left hf)
  | i => exact hi.resolve_left hf
  | pc => exact hpc.resolve_left hf
  | stk => exact hstk.resolve_left hf
  | mem => exact fun _ => rfl
  | _ => rfl

theorem State.changesOnly_pc (pc : Word) : s.changesOnly { s with pc := pc } [.pc] :=
  s.changesOnly_of_controlWrites (.inr rfl) (.inr rfl) (.inl (by decide)) (.inr rfl)

theorem State.changesOnly_skipIf (c : Bool) : s.changesOnly (s.skipIf c) [.pc] := s.changesOnly_pc _

/-! ### Jumps and skips -/

/-- The target of JP V0 does not wrap: NNN + V0 is below 2^16 (92 D9). -/
theorem zextAddr_add_zextByte_toNat (nnn : Addr12) (b : Byte) :
    (zextAddr nnn + zextByte b).toNat = nnn.toNat + b.toNat := by
  have hn := nnn.isLt
  have hb := b.isLt
  rw [BitVec.toNat_add, zextAddr_toNat, zextByte_toNat]
  omega

/-- The skips on a condition that fails (SNE, SKNP). -/
theorem State.skipIf_not_pc (c : Bool) : (s.skipIf (!c)).pc = if c then s.pc + 2 else s.pc + 4 := by
  cases c <;> rfl

/-- Settles O27. -/
theorem jumpsGoToTheirTargets : Obligations.JumpsGoToTheirTargets := fun s nnn =>
  ⟨⟨_, rfl, zextAddr_toNat nnn, s.changesOnly_pc _⟩,
    ⟨_, rfl, zextAddr_add_zextByte_toNat nnn (s.getV 0), s.changesOnly_pc _⟩⟩

/-- Settles O28: each skip is `skipIf` on its condition or on the negation of it. -/
theorem skipsAdvanceByFourOrTwo : Obligations.SkipsAdvanceByFourOrTwo := by
  intro s x y nn
  refine ⟨⟨_, rfl, s.changesOnly_skipIf _, ?seImm⟩, ⟨_, rfl, s.changesOnly_skipIf _, ?sneImm⟩,
    ⟨_, rfl, s.changesOnly_skipIf _, ?seReg⟩, ⟨_, rfl, s.changesOnly_skipIf _, ?sneReg⟩,
    ⟨_, rfl, s.changesOnly_skipIf _, ?pressed⟩, ⟨_, rfl, s.changesOnly_skipIf _, ?notPressed⟩⟩
  case seImm | seReg => simp only [State.skipIf_pc, beq_iff_eq]
  case sneImm | sneReg => simp only [bne, State.skipIf_not_pc, beq_iff_eq]
  case pressed => rw [State.skipIf_pc, keyIndex_eq]
  case notPressed => rw [State.skipIf_not_pc, keyIndex_eq]

/-! ### CALL and RET -/

section
variable {s}

theorem exec_call_of_room (nnn : Addr12) (h : s.stk.length < 16) :
    exec (.call nnn) s =
      .next { s with stk := { v := s.v, i := s.i, ret := s.pc + 2 } :: s.stk, pc := zextAddr nnn } := by
  rcases exec_call_cases s nnn with ⟨-, he⟩ | ⟨hfull, -⟩
  · exact he
  · omega

theorem exec_call_of_full (nnn : Addr12) (h : 16 ≤ s.stk.length) :
    exec (.call nnn) s = .next (s.raise .stackOverflow) := by
  rcases exec_call_cases s nnn with ⟨hroom, -⟩ | ⟨-, he⟩
  · omega
  · exact he

theorem exec_ret_of_cons {f : Frame} {rest : List Frame} (h : s.stk = f :: rest) :
    exec .ret s = .next { s with v := f.v, i := f.i, pc := f.ret, stk := rest } := by
  rcases exec_ret_cases s with ⟨f', rest', hs, he⟩ | ⟨hnil, -⟩
  · obtain ⟨rfl, rfl⟩ := List.cons.inj (h.symm.trans hs)
    exact he
  · simp [h] at hnil

theorem exec_ret_of_nil (h : s.stk = []) : exec .ret s = .next (s.raise .stackUnderflow) := by
  rcases exec_ret_cases s with ⟨f, rest, hs, -⟩ | ⟨-, he⟩
  · simp [h] at hs
  · exact he

/-- A step on the word 00EE, with a frame on the stack. -/
theorem step_ret_of_word {f : Frame} {rest : List Frame} (hready : s.ready) (hpc : s.pc.toNat ≤ 4094)
    (hword : wordOfBytes (s.readByte s.pc.toNat) (s.readByte (s.pc.toNat + 1)) = 0x00EE) (hstk : s.stk = f :: rest) :
    step s = .next { s with v := f.v, i := f.i, pc := f.ret, stk := rest } := by
  have hdec : decode s.params.haltWord 0x00EE = .ok .ret := decode_encode s.params.haltWord (i := .ret) (by decide)
  rw [← hword] at hdec
  rw [stepRunsTheDecodedInstruction s .ret hready hpc rfl hdec, exec_ret_of_cons hstk]

end

/-- Settles O29. -/
theorem callPushesAFrameOrOverflows : Obligations.CallPushesAFrameOrOverflows := fun s nnn =>
  ⟨fun hroom => ⟨_, exec_call_of_room nnn hroom, rfl, zextAddr_toNat nnn,
      s.changesOnly_of_controlWrites (.inr rfl) (.inr rfl) (.inl (by decide)) (.inl (by decide))⟩,
    exec_call_of_full nnn⟩

/-- Settles O30. -/
theorem retRestoresTheFrameOrUnderflows : Obligations.RetRestoresTheFrameOrUnderflows := fun s =>
  ⟨fun _ _ hs => ⟨_, exec_ret_of_cons hs, rfl, rfl, rfl, rfl,
      s.changesOnly_of_controlWrites (.inl (by decide)) (.inl (by decide)) (.inl (by decide)) (.inl (by decide))⟩,
    exec_ret_of_nil⟩

/-- Settles O32: the CALL's frame holds what RET restores, and the CALL leaves memory and readiness as they were, so
a RET at its target is the next instruction run. -/
theorem callThenReturnRoundTrips : Obligations.CallThenReturnRoundTrips := by
  intro s nnn hready hroom hfetch
  have hcall := (State.runOne_of_fetchDecode_ok hfetch).trans (exec_call_of_room nnn hroom)
  refine ⟨_, (step_of_ready hready).trans hcall, fun hnnn hword => ⟨_, step_ret_of_word ?ready ?bound ?word rfl,
    rfl, rfl, rfl, rfl⟩, fun w hstk => ⟨_, exec_ret_of_cons hstk, rfl, rfl, rfl, rfl⟩⟩
  case ready => exact hready
  case bound => rwa [zextAddr_toNat]
  case word =>
    rw [zextAddr_toNat]
    exact hword

end Sys2Proof.Machine
end

section
/-! PROOFS. 42_alu.md R146 to R151: the instructions that store a result in V[x] and then a flag in VF. -/

namespace Sys2Proof.Machine

variable (s : State)

/-! ### The result and the flag -/

section
variable (x : Reg) (result flag : Byte)

theorem State.getV_setResultFlag_result (hx : x ≠ 0xF) : (s.setResultFlag x result flag).advance.getV x = result := by
  rw [State.getV_advance, State.getV_setResultFlag]
  exact (if_neg hx).trans (if_pos rfl)

theorem State.getV_setResultFlag_flag : (s.setResultFlag x result flag).advance.getV 0xF = flag := by
  rw [State.getV_advance, State.getV_setResultFlag]
  exact if_pos rfl

theorem State.keepsRegsBut_setResultFlag : s.keepsRegsBut (s.setResultFlag x result flag).advance [x, 0xF] := by
  intro r hr
  obtain ⟨hx, hf⟩ : r ≠ x ∧ r ≠ flagReg := by simpa using hr
  rw [State.getV_advance, State.getV_setResultFlag, if_neg hf, if_neg hx]

theorem State.changesOnly_setResultFlag : s.changesOnly (s.setResultFlag x result flag).advance [.v, .pc] :=
  s.changesOnly_of_controlWrites (.inl (by decide)) (.inr rfl) (.inl (by decide)) (.inr rfl)

end

/-! ### The results in numbers -/

/-- The wrapped difference of two bytes is the exact one reduced modulo 256 (00 R14). -/
theorem byte_toNat_sub (a b : Byte) : ((a - b).toNat : Int) = ((a.toNat : Int) - b.toNat) % 256 := by
  have hb := b.isLt
  rw [BitVec.toNat_sub]
  omega

theorem byte_toNat_shr_one (a : Byte) : (a >>> 1).toNat = a.toNat / 2 := by
  rw [BitVec.toNat_ushiftRight, Nat.shiftRight_eq_div_pow, pow_one]

theorem byte_toNat_shl_one (a : Byte) : (a <<< 1).toNat = 2 * a.toNat % 256 := by
  rw [BitVec.toNat_shiftLeft, Nat.shiftLeft_eq, pow_one, Nat.mul_comm]

/-! ### The obligations -/

/-- Settles O34. -/
theorem addStoresSumAndCarry : Obligations.AddStoresSumAndCarry := by
  intro s x y
  refine ⟨_, rfl, fun hx => ?sum, ?carry, s.keepsRegsBut_setResultFlag x _ _, rfl, s.changesOnly_setResultFlag x _ _⟩
  case sum => rw [s.getV_setResultFlag_result x _ _ hx, BitVec.toNat_add]
  case carry => rw [s.getV_setResultFlag_flag, carryFlag_toNat]

/-- What SUB and SUBN have in common: the difference of two operands in V[x], and whether there is no borrow. -/
theorem State.next_difference (x : Reg) (a b : Byte) :
    ∃ t, (.next (s.setResultFlag x (a - b) (notBorrowFlag a b)).advance : Answer) = .next t ∧
      (x ≠ 0xF → ((t.getV x).toNat : Int) = ((a.toNat : Int) - b.toNat) % 256) ∧
      (t.getV 0xF).toNat = (if b.toNat ≤ a.toNat then 1 else 0) ∧
      s.keepsRegsBut t [x, 0xF] ∧ t.pc = s.pc + 2 ∧ s.changesOnly t [.v, .pc] := by
  refine ⟨_, rfl, fun hx => ?difference, ?noBorrow, s.keepsRegsBut_setResultFlag x _ _, rfl,
    s.changesOnly_setResultFlag x _ _⟩
  case difference => rw [s.getV_setResultFlag_result x _ _ hx, byte_toNat_sub]
  case noBorrow => rw [s.getV_setResultFlag_flag, notBorrowFlag_toNat]

/-- Settles O35: SUBN is SUB with the operands swapped. -/
theorem subtractionsStoreDifferenceAndNoBorrow : Obligations.SubtractionsStoreDifferenceAndNoBorrow := fun s x y =>
  ⟨s.next_difference x (s.getV x) (s.getV y), s.next_difference x (s.getV y) (s.getV x)⟩

/-- Settles O36. -/
theorem shiftsStoreTheBitShiftedOut : Obligations.ShiftsStoreTheBitShiftedOut := by
  intro s x y
  refine ⟨⟨_, rfl, fun hx => ?half, ?lowBit, s.keepsRegsBut_setResultFlag x _ _, rfl,
      s.changesOnly_setResultFlag x _ _⟩,
    ⟨_, rfl, fun hx => ?double, ?highBit, s.keepsRegsBut_setResultFlag x _ _, rfl,
      s.changesOnly_setResultFlag x _ _⟩⟩
  case half => rw [s.getV_setResultFlag_result x _ _ hx, byte_toNat_shr_one]
  case lowBit => rw [s.getV_setResultFlag_flag, lowBitFlag_toNat]
  case double => rw [s.getV_setResultFlag_result x _ _ hx, byte_toNat_shl_one]
  case highBit => rw [s.getV_setResultFlag_flag, highBitFlag_toNat]

end Sys2Proof.Machine
end

section
/-! PROOFS. 43_index_memory.md R170 to R175: the instructions that set I, and the stores and loads at I. -/

namespace Sys2Proof.Machine

variable (s : State)

/-! ### The check and the frames -/

/-- The check of an access that is not empty: its last byte, at `base + n`, is inside the memory (20 R56). -/
theorem accessOk_succ_iff (base n : Nat) : accessOk base (n + 1) = true ↔ base + n < 4096 := by
  simp [accessOk_iff, Nat.lt_iff_add_one_le, Nat.add_assoc]

/-- The closing `PC + 2` adds PC to what the instruction's own writes change. -/
theorem State.changesOnly_advance {s t : State} {fs : List Field} (h : s.changesOnly t fs) :
    s.changesOnly t.advance (fs ++ [.pc]) := by
  intro f hf
  obtain ⟨hfs, hpc⟩ : f ∉ fs ∧ f ≠ .pc := by simpa using hf
  have hsame := h f hfs
  cases f with
  | pc => exact absurd rfl hpc
  | _ => exact hsame

theorem State.changesOnly_i (i : Word) : s.changesOnly { s with i := i } [.i] :=
  s.changesOnly_of_controlWrites (.inr rfl) (.inl (by decide)) (.inr rfl) (.inr rfl)

theorem State.changesOnly_setVs (k : Nat) (bs : List Byte) : s.changesOnly (s.setVs k bs) [.v] := by
  intro f hf
  cases f with
  | v => simp at hf
  | mem => exact State.readByte_eq (s.setVs_mem k bs) (s.setVs_params k bs)
  | _ => simp [State.sameField]

/-! ### Setting I -/

/-- Settles O38. -/
theorem indexInstructionsSetI : Obligations.IndexInstructionsSetI := by
  intro s x nnn
  refine ⟨⟨_, rfl, zextAddr_toNat nnn, rfl, State.changesOnly_advance (s.changesOnly_i _)⟩,
    ⟨_, rfl, ?sum, rfl, State.changesOnly_advance (s.changesOnly_i _)⟩,
    ⟨_, rfl, glyphAddr_toNat (s.getV x), rfl, State.changesOnly_advance (s.changesOnly_i _)⟩⟩
  case sum => rw [State.advance_i, BitVec.toNat_add, zextByte_toNat]

/-! ### Stores -/

/-- What BCD and REG_DUMP have in common: bytes stored at I and PC + 2, or OutOfBounds with nothing stored
(43 R176). -/
theorem State.finish_storeBytes_advance {bs : List Byte} {n : Nat} (hlen : bs.length = n + 1) :
    (s.base + n < 4096 → ∃ t, s.finish ((s.storeBytes s.base bs).map State.advance) = .next t ∧
      (∀ k b, bs[k]? = some b → t.readByte (s.base + k) = b) ∧
      s.keepsBytesOutside t s.base (n + 1) ∧ t.pc = s.pc + 2 ∧ s.changesOnly t [.mem, .pc]) ∧
    (4096 ≤ s.base + n →
      s.finish ((s.storeBytes s.base bs).map State.advance) = .next (s.raise .outOfBounds)) := by
  have hfits := accessOk_succ_iff s.base n
  rw [← hlen] at hfits ⊢
  rcases s.storeBytes_cases s.base bs with ⟨hok, hstore⟩ | ⟨hfail, hstore⟩
  · obtain ⟨u, hu⟩ : ∃ u, s.storeBytes s.base bs = .ok u := ⟨_, hstore⟩
    have hkeep := State.storeBytes_keepsBytesOutside hu
    have hframe := State.storeBytes_changesOnly_mem hu
    refine ⟨fun _ => ⟨u.advance, by rw [hu, except_map_ok, State.finish_ok], fun k b hb => ?stored, hkeep,
      congrArg (· + 2) (hframe .pc (by decide)), State.changesOnly_advance hframe⟩,
      fun hout => absurd (hfits.1 hok) (Nat.not_lt.2 hout)⟩
    case stored =>
      obtain ⟨hlt, rfl⟩ := List.getElem?_eq_some_iff.1 hb
      rw [State.readByte_advance, State.readByte_storeBytes_getElem hu hlt]
  · refine ⟨fun hroom => ?inside, fun _ => by rw [hstore, except_map_error, State.finish_error]⟩
    case inside => simp [hfits.2 hroom] at hfail

/-- Settles O39: each digit is below 256, so its byte holds it unreduced. -/
theorem bcdStoresTheDigits : Obligations.BcdStoresTheDigits := by
  intro s x
  have hv := (s.getV x).isLt
  obtain ⟨hroom, hout⟩ := s.finish_storeBytes_advance (bs := bcdDigits (s.getV x)) (n := 2) rfl
  refine ⟨fun h => ?stored, hout⟩
  obtain ⟨t, hexec, hread, hkeep, hpc, hframe⟩ := hroom h
  refine ⟨t, hexec, ?hundreds, ?tens, ?ones, hkeep, hpc, hframe⟩
  case hundreds => rw [← s.base.add_zero, hread 0 _ rfl, BitVec.toNat_ofNat, Nat.mod_eq_of_lt (by omega)]
  case tens => rw [hread 1 _ rfl, BitVec.toNat_ofNat, Nat.mod_eq_of_lt (by omega)]
  case ones => rw [hread 2 _ rfl, BitVec.toNat_ofNat, Nat.mod_eq_of_lt (by omega)]

/-- Settles O40. -/
theorem regDumpStoresTheRegisters : Obligations.RegDumpStoresTheRegisters := by
  intro s x
  obtain ⟨hroom, hout⟩ := s.finish_storeBytes_advance (s.length_getVs x)
  refine ⟨fun h => ?stored, hout⟩
  obtain ⟨t, hexec, hread, hrest⟩ := hroom h
  exact ⟨t, hexec, fun r hr => hread r.toNat _ (s.getVs_getElem? x r hr), hrest⟩

/-! ### Loads -/

/-- Settles O41: V0 to VX are at most 16 registers, so the run of register writes does not wrap. -/
theorem regLoadLoadsTheRegisters : Obligations.RegLoadLoadsTheRegisters := by
  intro s x
  have hx := x.isLt
  have hfits := accessOk_succ_iff s.base x.toNat
  rcases exec_regLoad_cases s x with ⟨hok, hexec⟩ | ⟨hfail, hexec⟩
  · refine ⟨fun _ => ⟨_, hexec, fun r => ?register, ?pc, State.changesOnly_advance (s.changesOnly_setVs 0 _)⟩,
      fun hout => absurd (hfits.1 hok) (Nat.not_lt.2 hout)⟩
    case register =>
      rw [State.getV_advance, State.getV_setVs _ _ _ (by simp; omega)]
      by_cases hr : r.toNat ≤ x.toNat
      · simp [hr, Nat.lt_succ_of_le hr]
      · simp [hr]
    case pc => rw [State.advance_pc, State.setVs_pc]
  · refine ⟨fun hroom => ?inside, fun _ => hexec⟩
    case inside => simp [hfits.2 hroom] at hfail

/-- Settles O42: REG_DUMP leaves V[r] at I + r and keeps I, and REG_LOAD reads V[r] from there. -/
theorem dumpThenLoadRoundTrips : Obligations.DumpThenLoadRoundTrips := by
  intro s t u x hroom hdump hi hbytes
  obtain ⟨t', hexec, hstored, -, -, hframe⟩ := (regDumpStoresTheRegisters s x).1 hroom
  obtain rfl : t' = t := Host.Outcome.next.inj (hexec.symm.trans hdump)
  have hbase : u.base = s.base := congrArg BitVec.toNat (hi.trans (hframe .i (by decide)))
  obtain ⟨w, hload, hregs, -, -⟩ := (regLoadLoadsTheRegisters u x).1 (hbase ▸ hroom)
  refine ⟨w, hload, fun r hr => ?_⟩
  calc w.getV r = u.readByte (u.base + r.toNat) := (hregs r).trans (if_pos hr)
    _ = t'.readByte (s.base + r.toNat) := by rw [hbytes, hbase]
    _ = s.getV r := hstored r hr

end Sys2Proof.Machine
end

section
/-! PROOFS. 44_display.md R190 to R196: CLEAR, DRAW as an XOR of the sprite's pixels, the same sprite drawn twice, and
the snapshot. -/

namespace Sys2Proof.Machine

/-! ### A sprite on the framebuffer -/

section
variable (fb : FrameBuffer) (x0 y0 : Nat) (sprite : List Byte)

/-- Drawing a sprite: every cell of the grid XORed with the sprite's pixel there (44 R191). -/
theorem FrameBuffer.cell_drawSprite {r c : Nat} (hr : r < 32) (hc : c < 64) :
    (fb.drawSprite x0 y0 sprite).1.cell r c = (fb.cell r c ^^ spritePixel sprite x0 y0 r c) :=
  fb.cell_drawRows false x0 y0 sprite r c hr hc

/-- Drawing a sprite collides exactly when a lit cell lies under one of its pixels (44 R191). -/
theorem FrameBuffer.hit_drawSprite :
    (fb.drawSprite x0 y0 sprite).2 = true ↔
      ∃ r c, r < 32 ∧ c < 64 ∧ fb.cell r c = true ∧ spritePixel sprite x0 y0 r c = true := by
  rw [FrameBuffer.drawSprite, FrameBuffer.hit_drawRows]
  simp only [Bool.false_eq_true, false_or]

/-- XOR is its own inverse, cell by cell (44 R196). -/
theorem FrameBuffer.drawSprite_drawSprite :
    ((fb.drawSprite x0 y0 sprite).1.drawSprite x0 y0 sprite).1 = fb := by
  apply FrameBuffer.ext_cell
  intro r c hr hc
  rw [FrameBuffer.cell_drawSprite _ _ _ _ hr hc, FrameBuffer.cell_drawSprite _ _ _ _ hr hc, Bool.xor_assoc,
    Bool.xor_self, Bool.xor_false]

/-- The second draw collides where the first one lit a cell. -/
theorem FrameBuffer.hit_drawSprite_drawSprite :
    ((fb.drawSprite x0 y0 sprite).1.drawSprite x0 y0 sprite).2 = true ↔
      ∃ r c, r < 32 ∧ c < 64 ∧ fb.cell r c = false ∧ spritePixel sprite x0 y0 r c = true := by
  rw [FrameBuffer.hit_drawSprite]
  refine exists₂_congr fun r c => and_congr_right fun hr => and_congr_right fun hc => and_congr_left fun hpixel => ?_
  rw [FrameBuffer.cell_drawSprite _ _ _ _ hr hc, hpixel, Bool.xor_true, Bool.not_eq_true']

end

theorem flagByte_eq_one_iff (c : Bool) : flagByte c = 1 ↔ c = true := by
  cases c <;> decide

/-! ### What DRAW and CLEAR do to a state -/

variable (s : State)

/-- The frame of CLEAR, DRAW and a snapshot: FB, the registers and the schedule are the pieces they can write before
PC + 2, and each that is not named keeps its value. -/
theorem State.changesOnly_of_displayWrites {fb : FrameBuffer} {v : Regs} {inputs : List Event} {fs : List Field}
    (hfb : .fb ∈ fs ∨ fb = s.fb) (hv : .v ∈ fs ∨ v = s.v) (hinputs : .inputs ∈ fs ∨ inputs = s.inputs) :
    s.changesOnly { s with fb := fb, v := v, inputs := inputs } fs := by
  intro f hf
  cases f with
  | fb => exact hfb.resolve_left hf
  | v => exact State.getV_eq (hv.resolve_left hf)
  | inputs => exact hinputs.resolve_left hf
  | mem => exact fun _ => rfl
  | _ => rfl

section
variable (x y : Reg) (sprite : List Byte)

theorem State.blit_fb :
    (s.blit x y sprite).fb = (s.fb.drawSprite (originColumn (s.getV x)) (originRow (s.getV y)) sprite).1 := rfl

/-- VF after a sprite is drawn: the collision flag (44 R191). -/
theorem State.getV_blit_flag :
    (s.blit x y sprite).getV flagReg =
      flagByte (s.fb.drawSprite (originColumn (s.getV x)) (originRow (s.getV y)) sprite).2 := by
  rw [State.blit, State.getV_setV, if_pos rfl]

/-- VF after a sprite is drawn is 1 with a lit cell under a pixel, or 0 with none (44 R191). -/
theorem State.getV_blit_flag_cases :
    ((s.blit x y sprite).getV flagReg = 1 ∧ ∃ r c, r < 32 ∧ c < 64 ∧ s.fb.cell r c = true ∧
        spritePixel sprite (originColumn (s.getV x)) (originRow (s.getV y)) r c = true) ∨
      ((s.blit x y sprite).getV flagReg = 0 ∧ ∀ r c, r < 32 → c < 64 → s.fb.cell r c = true →
        spritePixel sprite (originColumn (s.getV x)) (originRow (s.getV y)) r c = false) := by
  have hcollides := s.fb.hit_drawSprite (originColumn (s.getV x)) (originRow (s.getV y)) sprite
  rw [State.getV_blit_flag]
  generalize (s.fb.drawSprite _ _ sprite).2 = hit at hcollides ⊢
  cases hit with
  | true => exact .inl ⟨rfl, hcollides.1 rfl⟩
  | false =>
    refine .inr ⟨rfl, fun r c hr hc hlit => Bool.eq_false_iff.2 fun hpixel => ?_⟩
    exact Bool.false_ne_true (hcollides.2 ⟨r, c, hr, hc, hlit, hpixel⟩)

theorem State.keepsRegsBut_blit : s.keepsRegsBut (s.blit x y sprite).advance [flagReg] := fun _ hr =>
  s.getV_blit_of_ne (by simpa using hr) x y sprite

theorem State.changesOnly_blit : s.changesOnly (s.blit x y sprite) [.fb, .v] :=
  s.changesOnly_of_displayWrites (.inl (by decide)) (.inl (by decide)) (.inr rfl)

end

/-! ### The same sprite drawn again -/

section
variable {s} {t : State} {x y : Reg} {sprite : List Byte} (hfb : t.fb = (s.blit x y sprite).fb)
  (hx : originColumn (t.getV x) = originColumn (s.getV x)) (hy : originRow (t.getV y) = originRow (s.getV y))
include hfb hx hy

/-- A sprite drawn again at its origin restores FB (44 R196). -/
theorem State.blit_again_fb : (t.blit x y sprite).fb = s.fb := by
  rw [State.blit_fb, hx, hy, hfb, State.blit_fb, FrameBuffer.drawSprite_drawSprite]

/-- VF after a sprite is drawn again at its origin: whether the first draw lit a cell (44 R191). -/
theorem State.getV_blit_again_flag :
    (t.blit x y sprite).getV flagReg = 1 ↔ ∃ r c, r < 32 ∧ c < 64 ∧ s.fb.cell r c = false ∧
      spritePixel sprite (originColumn (s.getV x)) (originRow (s.getV y)) r c = true := by
  rw [State.getV_blit_flag, flagByte_eq_one_iff, hx, hy, hfb, State.blit_fb, FrameBuffer.hit_drawSprite_drawSprite]

end

/-! ### The bound of DRAW -/

/-- The check of DRAW as 44 R193 writes it: an empty sprite, or the last byte inside the memory. -/
theorem accessOk_iff_last (base n : Nat) : accessOk base n = true ↔ n = 0 ∨ base + n - 1 < 4096 := by
  simp [accessOk]

section
variable {s} {n : Nibble} (x y : Reg)

theorem exec_draw_of_room (h : n.toNat = 0 ∨ s.base + n.toNat - 1 < 4096) :
    exec (.draw x y n) s = .next (s.blit x y (s.spriteBytes n)).advance := by
  rcases exec_draw_cases s x y n with ⟨-, hexec⟩ | ⟨hfail, -⟩
  · exact hexec
  · simp [(accessOk_iff_last _ _).2 h] at hfail

theorem exec_draw_of_out_of_bounds (hn : 0 < n.toNat) (h : 4096 ≤ s.base + n.toNat - 1) :
    exec (.draw x y n) s = .next (s.raise .outOfBounds) := by
  rcases exec_draw_cases s x y n with ⟨hok, -⟩ | ⟨-, hexec⟩
  · rcases (accessOk_iff_last _ _).1 hok with hzero | hlast <;> omega
  · exact hexec

end

/-! ### The obligations -/

/-- Settles O46. -/
theorem clearUnlightsEveryCell : Obligations.ClearUnlightsEveryCell := fun s =>
  ⟨_, rfl, FrameBuffer.cell_blank, rfl,
    State.changesOnly_advance (s.changesOnly_of_displayWrites (fs := [.fb]) (.inl (by decide)) (.inr rfl) (.inr rfl))⟩

/-- Settles O25. -/
theorem snapshotChangesNothing : Obligations.SnapshotChangesNothing := fun s _ h =>
  ⟨_, step_cons h, s.changesOnly_of_displayWrites (.inr rfl) (.inr rfl) (.inl (by decide)), rfl, rfl⟩

/-- Settles O47. -/
theorem drawXorsTheClippedSprite : Obligations.DrawXorsTheClippedSprite := fun s x y _ =>
  ⟨fun hroom => ⟨_, exec_draw_of_room x y hroom, fun _ _ hr hc => s.fb.cell_drawSprite _ _ _ hr hc,
      s.getV_blit_flag_cases x y _, s.keepsRegsBut_blit x y _, rfl,
      State.changesOnly_advance (s.changesOnly_blit x y _)⟩,
    exec_draw_of_out_of_bounds x y⟩

/-- Settles O48: the second draw reads the same sprite, and the first left FB with that sprite on it. -/
theorem drawingTwiceRestores : Obligations.DrawingTwiceRestores := by
  intro s t x y n hroom hdraw hx hy
  obtain rfl := Host.Outcome.next.inj ((exec_draw_of_room x y hroom).symm.trans hdraw)
  have hvf := State.getV_blit_again_flag (sprite := s.spriteBytes n) (State.advance_fb _) hx hy
  refine ⟨_, exec_draw_of_room x y hroom, State.blit_again_fb (State.advance_fb _) hx hy, hvf,
    fun hunlit => hvf.trans ⟨?_, ?_⟩⟩
  · rintro ⟨r, c, hr, hc, -, hpixel⟩
    exact ⟨r, c, hr, hc, hpixel⟩
  · rintro ⟨r, c, hr, hc, hpixel⟩
    exact ⟨r, c, hr, hc, hunlit r c hr hc hpixel, hpixel⟩

end Sys2Proof.Machine
end

section
/-! PROOFS. 45_timers_input.md R213: a reset ends a key wait, and nothing but WAIT_KEY begins one. -/

namespace Sys2Proof.Machine

/-! ### What begins a key wait -/

@[simp] theorem State.blit_status (s : State) (x y : Reg) (sprite : List Byte) :
    (s.blit x y sprite).status = s.status := rfl

/-- WAIT_KEY parks the executor, STOP halts it, a fault is recorded, and every other outcome of an instruction leaves
the status as it was (10 R30). -/
theorem exec_status_cases {i : Instr} {s t : State} (h : exec i s = .next t) :
    t.status = s.status ∨ (∃ x, i = .waitKey x ∧ t.status = .waitingKey x) ∨
      (i = .stop ∧ t.status = .halted) ∨ ∃ r, t.status = .faulted r := by
  cases i with
  | waitKey x => cases h; exact .inr (.inl ⟨x, rfl, rfl⟩)
  | stop => cases h; exact .inr (.inr (.inl ⟨rfl, rfl⟩))
  | ret => rcases exec_ret_cases s with ⟨_, _, -, he⟩ | ⟨-, he⟩ <;> cases he.symm.trans h <;> simp
  | call nnn => rcases exec_call_cases s nnn with ⟨-, he⟩ | ⟨-, he⟩ <;> cases he.symm.trans h <;> simp
  | draw x y n => rcases exec_draw_cases s x y n with ⟨-, he⟩ | ⟨-, he⟩ <;> cases he.symm.trans h <;> simp
  | bcd x => rcases exec_bcd_cases s x with ⟨-, he⟩ | ⟨-, he⟩ <;> cases he.symm.trans h <;> simp
  | regDump x => rcases exec_regDump_cases s x with ⟨-, he⟩ | ⟨-, he⟩ <;> cases he.symm.trans h <;> simp
  | regLoad x => rcases exec_regLoad_cases s x with ⟨-, he⟩ | ⟨-, he⟩ <;> cases he.symm.trans h <;> simp
  | _ => cases h; exact .inl rfl

/-- A tick leaves the status as it was (45 R211). -/
@[simp] theorem State.tick_status (s : State) : s.tick.status = s.status := by
  rcases s.tick_cases with ⟨-, htick⟩ | ⟨-, htick⟩ <;> simp [htick]

/-- A key event resolves the wait or leaves the status as it was (45 R210 to R212). -/
theorem State.setKeyPressed_status_cases (s : State) (k : BitVec 4) (p : Bool) :
    (s.setKeyPressed k p).status = .running ∨ (s.setKeyPressed k p).status = s.status := by
  rcases s.setKeyPressed_cases k p with ⟨x, -, -, hpress⟩ | ⟨-, hlatch⟩
  · exact .inl (by rw [hpress]; rfl)
  · exact .inr (by rw [hlatch, State.setKey_status])

/-- A reset leaves the cleared state, but for the memory the load writes and the status it reports; that is no key
wait (70 R260, R263). -/
theorem State.resetWith_eq (s : State) (rom : List Byte) :
    ∃ mem status, (∀ x, status ≠ .waitingKey x) ∧
      s.resetWith rom = { s.clear with mem := mem, status := status } := by
  rcases s.clear.load_cases rom with ⟨-, hload⟩ | ⟨-, hload⟩
  · exact ⟨_, .running, nofun, congrArg Prod.snd hload⟩
  · exact ⟨_, .faulted .romTooLarge, nofun, congrArg Prod.snd hload⟩

section
variable {s t : State} {y : Reg}

/-- A call of `step()` that leaves the executor in a key wait ran the WAIT_KEY at PC (45 R203). -/
theorem State.waitKey_of_stepCall (h : s.stepCall = .next t) (hwait : t.status = .waitingKey y) :
    s.status = .running ∧ s.fetchDecode = .ok (.waitKey y) := by
  rcases s.stepCall_cases with ⟨hrun, hcall⟩ | ⟨-, hcall⟩ | ⟨hfinal, hcall⟩
  · have hone : s.runOne = .next t := hcall.symm.trans h
    refine ⟨hrun, ?_⟩
    rcases s.runOne_cases with ⟨r, -, hraise⟩ | ⟨i, hfetch, hexec⟩
    · cases hraise.symm.trans hone
      cases hwait
    · rcases exec_status_cases (hexec.symm.trans hone) with hs | ⟨x, rfl, hs⟩ | ⟨-, hs⟩ | ⟨r, hs⟩
      · cases hrun.symm.trans (hs.symm.trans hwait)
      · cases hs.symm.trans hwait
        exact hfetch
      · cases hs.symm.trans hwait
      · cases hs.symm.trans hwait
  · cases hcall.symm.trans h
  · cases hcall.symm.trans h
    rcases hfinal with hs | ⟨r, hs⟩ <;> cases hs.symm.trans hwait

/-- A transaction that leaves the executor in a key wait found it in that wait or ran the WAIT_KEY at PC. -/
theorem State.waiting_or_waitKey_of_perform {e : Event} (h : s.perform e = .next t)
    (hwait : t.status = .waitingKey y) :
    s.status = .waitingKey y ∨ s.status = .running ∧ s.fetchDecode = .ok (.waitKey y) := by
  rcases State.perform_cases h with
    ⟨-, hcall⟩ | ⟨-, rfl⟩ | ⟨k, p, -, -, rfl⟩ | ⟨-, rfl⟩ | ⟨rom, -, rfl⟩
  · exact .inr (State.waitKey_of_stepCall hcall hwait)
  · exact .inl (s.tick_status.symm.trans hwait)
  · rcases s.setKeyPressed_status_cases (BitVec.ofNat 4 k) p with hs | hs
    · cases hs.symm.trans hwait
    · exact .inl (hs.symm.trans hwait)
  · exact .inl hwait
  · obtain ⟨mem, status, hnot, hreset⟩ := s.resetWith_eq rom
    rw [hreset] at hwait
    exact absurd hwait (hnot y)

/-- A step that leaves the executor in a key wait found it in that wait or ran the WAIT_KEY at PC. -/
theorem waiting_or_waitKey_of_step (h : step s = .next t) (hwait : t.status = .waitingKey y) :
    s.status = .waitingKey y ∨ s.status = .running ∧ s.fetchDecode = .ok (.waitKey y) := by
  rcases step_cases s with ⟨-, hstep⟩ | ⟨e, rest, -, hstep⟩
  · exact .inr (State.waitKey_of_stepCall (s := { s with inputs := [] }) (hstep.symm.trans h) hwait)
  · exact State.waiting_or_waitKey_of_perform (s := { s with inputs := rest }) (hstep.symm.trans h) hwait

end

/-! ### A key event outside a wait -/

theorem State.changesOnly_setKey_inputs (s : State) (rest : List Event) (k : BitVec 4) (p : Bool) :
    s.changesOnly (State.setKey { s with inputs := rest } k p) [.key, .inputs] := by
  intro f hf
  cases f with
  | key | inputs => simp at hf
  | mem | v => exact fun _ => rfl
  | _ => rfl

section
variable {s : State} {rest : List Event}

/-- Outside a key wait a key event with a code of the keypad sets its bit of the latch and nothing else (45 R212). -/
theorem step_keyEvent_of_not_waiting {code : Nat} {p : Bool} (hnot : ∀ x, s.status ≠ .waitingKey x)
    (hinputs : s.inputs = .setKeyPressed code p :: rest) (hcode : code ≤ 15) :
    step s = .next (State.setKey { s with inputs := rest } (BitVec.ofNat 4 code) p) := by
  rw [step_event hinputs nofun, State.perform, if_pos hcode]
  rcases State.setKeyPressed_cases { s with inputs := rest } (BitVec.ofNat 4 code) p with ⟨x, hs, -⟩ | ⟨-, hlatch⟩
  · exact absurd hs (hnot x)
  · rw [hlatch]

/-- A step that performs a key event was given a code of the keypad (45 R212). -/
theorem code_le_of_step_keyEvent {t : State} {code : Nat} {p : Bool}
    (hinputs : s.inputs = .setKeyPressed code p :: rest) (h : step s = .next t) : code ≤ 15 := by
  by_contra hcode
  rw [step_event hinputs nofun, State.perform, if_neg hcode] at h
  cases h

end

/-! ### The obligation -/

/-- Settles O21: the reset clears the wait, so the press after it is a key event outside a wait; and only WAIT_KEY
begins one. -/
theorem resetCancelsTheKeyWait : Obligations.ResetCancelsTheKeyWait := by
  refine ⟨fun s x rom k rest _ hsched => ?_, fun s t y => waiting_or_waitKey_of_step, ?_⟩
  · obtain ⟨mem, status, hnot, hreset⟩ :=
      State.resetWith_eq { s with inputs := .setKeyPressed k.toNat true :: rest } rom
    refine ⟨_, _, (step_cons hsched).trans (congrArg Host.Outcome.next hreset), hnot, State.getV_clear s, rfl, rfl,
      rfl, rfl, rfl, State.getKey_clear s, step_keyEvent_of_not_waiting hnot rfl (by omega),
      State.changesOnly_setKey_inputs _ _ _ _⟩
  · intro s t code p rest hnot hinputs h
    have hcode := code_le_of_step_keyEvent hinputs h
    cases (step_keyEvent_of_not_waiting hnot hinputs hcode).symm.trans h
    exact s.changesOnly_setKey_inputs _ _ _

end Sys2Proof.Machine
end

section
/-! PROOFS. 60_exceptions.md R226: Faulted is final, and only a reset leaves it. -/

namespace Sys2Proof.Machine

/-! ### What a transaction does in a final status -/

theorem State.not_waiting_of_final {s : State} (h : s.final) (x : Reg) : s.status ≠ .waitingKey x := by
  intro hwait
  rcases h with hs | ⟨r, hs⟩ <;> cases hs.symm.trans hwait

/-- A `step()` in a final status changes nothing (40 R107). -/
theorem State.stepCall_of_final {s : State} (h : s.final) : s.stepCall = .next s := by
  rcases s.stepCall_cases with ⟨hrun, -⟩ | ⟨⟨x, hwait⟩, -⟩ | ⟨-, hcall⟩
  · rcases h with hs | ⟨r, hs⟩ <;> cases hs.symm.trans hrun
  · exact absurd hwait (s.not_waiting_of_final h x)
  · exact hcall

/-- In a final status a transaction that is no reset changes nothing, or is a key event and writes the key latch
alone (40 R107). -/
theorem State.perform_cases_of_final {s t : State} {e : Event} (hfinal : s.final) (he : ∀ rom, e ≠ .reset rom)
    (h : s.perform e = .next t) : t = s ∨ ∃ k p, t = s.setKey k p := by
  rcases State.perform_cases h with
    ⟨-, hcall⟩ | ⟨-, rfl⟩ | ⟨k, p, -, -, rfl⟩ | ⟨-, rfl⟩ | ⟨rom, hreset, -⟩
  · cases (State.stepCall_of_final hfinal).symm.trans hcall
    exact .inl rfl
  · rcases s.tick_cases with ⟨-, htick⟩ | ⟨hnot, -⟩
    · exact .inl htick
    · exact absurd hfinal hnot
  · rcases s.setKeyPressed_cases (BitVec.ofNat 4 k) p with ⟨x, hwait, -, -⟩ | ⟨-, hlatch⟩
    · exact absurd hwait (s.not_waiting_of_final hfinal x)
    · exact .inr ⟨_, _, hlatch⟩
  · exact .inl rfl
  · exact absurd hreset (he rom)

/-- In a final status a step that performs no reset leaves the state it found, the inputs and the key latch apart
(40 R107). -/
theorem step_cases_of_final {s t : State} (hfinal : s.final) (hreset : ∀ rom rest, s.inputs ≠ .reset rom :: rest)
    (h : step s = .next t) :
    ∃ rest, t = { s with inputs := rest } ∨ ∃ k p, t = State.setKey { s with inputs := rest } k p := by
  rcases step_cases s with ⟨-, hstep⟩ | ⟨e, rest, hsched, hstep⟩
  · have hcall := State.stepCall_of_final (s := { s with inputs := [] }) hfinal
    cases (hstep.trans hcall).symm.trans h
    exact ⟨[], .inl rfl⟩
  · rw [State.schedule_eq_inputs (s.not_waiting_of_final hfinal)] at hsched
    have he : ∀ rom, e ≠ .reset rom := by
      rintro rom rfl
      exact hreset rom rest hsched
    exact ⟨rest, State.perform_cases_of_final (s := { s with inputs := rest }) hfinal he (hstep.symm.trans h)⟩

/-! ### The way out -/

/-- A reset with a ROM that fits leaves the executor running (70 R260, R263). -/
theorem State.resetWith_status_of_fits (s : State) {rom : List Byte} (h : rom.length ≤ 3584) :
    (s.resetWith rom).status = .running := by
  rcases s.clear.load_cases rom with ⟨-, hload⟩ | ⟨hlong, -⟩
  · rw [State.resetWith, hload]
    rfl
  · omega

/-! ### The obligation -/

/-- Settles O13: a state in Faulted is final, and what a step can do in a final status writes no status. -/
theorem faultedIsLeftByResetAlone : Obligations.FaultedIsLeftByResetAlone := by
  intro s r hfault
  have hfinal : s.final := .inr ⟨r, hfault⟩
  refine ⟨fun hinputs => (step_nil hinputs).trans (State.stepCall_of_final hfinal), ?result, ?kept, ?reset⟩
  case result => simp [State.result, hfault]
  case kept =>
    intro t h hreset
    obtain ⟨rest, rfl | ⟨k, p, rfl⟩⟩ := step_cases_of_final hfinal hreset h <;> exact hfault
  case reset =>
    intro rom rest hinputs hfits
    exact ⟨_, step_event hinputs nofun, State.resetWith_status_of_fits _ hfits⟩

end Sys2Proof.Machine
end

section
/-! PROOFS. 70_reset_and_hazards.md R261: a reset writes every piece of state but the parameters and the model's own
fields, so of the run before it only those are left. -/

namespace Sys2Proof.Machine

/-! ### What a reset takes from the state before it -/

/-- Clearing leaves nothing but the parameters and the model's own fields to tell two states apart (70 R260). -/
theorem State.clear_of_params_eq {s u : State} (h : s.params = u.params) :
    u.clear = { s.clear with draws := u.draws, inputs := u.inputs } := by
  simp only [State.clear, h]

/-- A load reads and writes neither the draw count nor the schedule (70 R263). -/
theorem State.load_with_draws_inputs (s : State) (draws : Nat) (inputs : List Event) (rom : List Byte) :
    (State.load { s with draws := draws, inputs := inputs } rom).2 =
      { (s.load rom).2 with draws := draws, inputs := inputs } := by
  unfold State.load
  split <;> rfl

theorem State.resetWith_of_params_eq {s u : State} (h : s.params = u.params) (rom : List Byte) :
    u.resetWith rom = { s.resetWith rom with draws := u.draws, inputs := u.inputs } := by
  rw [State.resetWith, State.clear_of_params_eq h, State.load_with_draws_inputs, State.resetWith]

theorem State.resetWith_pc (s : State) (rom : List Byte) : (s.resetWith rom).pc = 0x200 := by
  obtain ⟨_, _, -, hreset⟩ := s.resetWith_eq rom
  rw [hreset, State.clear_pc]

/-! ### The obligation -/

/-- Settles O20: what a step can do in a final status writes no status, and both resets take the same parameters and
nothing else from the states they meet. -/
theorem resetLeavesNoTrace : Obligations.ResetLeavesNoTrace := by
  refine ⟨?status, ?trace⟩
  case status =>
    intro s t hfinal h hreset
    obtain ⟨rest, rfl | ⟨k, p, rfl⟩⟩ := step_cases_of_final hfinal hreset h <;> rfl
  case trace =>
    intro s u rom rest rest' hparams hs hu
    have hresets : State.resetWith { u with inputs := rest' } rom =
        { State.resetWith { s with inputs := rest } rom with draws := u.draws, inputs := rest' } :=
      State.resetWith_of_params_eq (s := { s with inputs := rest }) (u := { u with inputs := rest' }) hparams rom
    exact ⟨_, step_cons hs, State.resetWith_pc _ rom, (step_cons hu).trans (congrArg Host.Outcome.next hresets)⟩

end Sys2Proof.Machine
end

section
/-! PROOFS. 40_executor.md R111, 60_exceptions.md R220, R224, 20_memory.md R50: what an instruction can do, said once.
It takes one of its own faults, or it has none and writes only the pieces its rule names. -/

namespace Sys2Proof.Machine

/-! ### Every arm answers -/

theorem State.exists_finish (s : State) (x : Except Reason State) : ∃ t, s.finish x = .next t := by
  cases x <;> exact ⟨_, rfl⟩

/-- Settles O50: the arms that can fault end in `finish`, and every other one answers its next state outright. -/
theorem everyInstructionAnswersANextState : Obligations.EveryInstructionAnswersANextState := by
  intro i s
  cases i with
  | ret | call _ | draw _ _ _ | bcd _ | regDump _ | regLoad _ => exact s.exists_finish _
  | _ => exact ⟨_, rfl⟩

/-! ### Frames -/

section
variable (s : State)

/-- The frame of what writes a timer, the latch, the status, the draw count or the schedule, each piece that is not
named keeping its value. -/
theorem State.changesOnly_of_eventWrites {dt st : Byte} {key : Vector Bool 16} {status : Status} {draws : Nat}
    {inputs : List Event} {fs : List Field} (hdt : .dt ∈ fs ∨ dt = s.dt) (hst : .st ∈ fs ∨ st = s.st)
    (hkey : .key ∈ fs ∨ key = s.key) (hstatus : .status ∈ fs ∨ status = s.status)
    (hdraws : .draws ∈ fs ∨ draws = s.draws) (hinputs : .inputs ∈ fs ∨ inputs = s.inputs) :
    s.changesOnly { s with dt := dt, st := st, key := key, status := status, draws := draws, inputs := inputs } fs := by
  intro f hf
  cases f with
  | dt => exact hdt.resolve_left hf
  | st => exact hst.resolve_left hf
  | key => exact hkey.resolve_left hf
  | status => exact hstatus.resolve_left hf
  | draws => exact hdraws.resolve_left hf
  | inputs => exact hinputs.resolve_left hf
  | mem | v => exact fun _ => rfl
  | _ => rfl

theorem State.changesOnly_status (status : Status) : s.changesOnly { s with status := status } [.status] :=
  s.changesOnly_of_eventWrites (.inr rfl) (.inr rfl) (.inr rfl) (.inl (by decide)) (.inr rfl) (.inr rfl)

theorem State.changesOnly_dt (dt : Byte) : s.changesOnly { s with dt := dt } [.dt] :=
  s.changesOnly_of_eventWrites (.inl (by decide)) (.inr rfl) (.inr rfl) (.inr rfl) (.inr rfl) (.inr rfl)

theorem State.changesOnly_st (st : Byte) : s.changesOnly { s with st := st } [.st] :=
  s.changesOnly_of_eventWrites (.inr rfl) (.inl (by decide)) (.inr rfl) (.inr rfl) (.inr rfl) (.inr rfl)

theorem State.changesOnly_fb (fb : FrameBuffer) : s.changesOnly { s with fb := fb } [.fb] :=
  s.changesOnly_of_displayWrites (.inl (by decide)) (.inr rfl) (.inr rfl)

theorem State.changesOnly_setV (x : Reg) (b : Byte) : s.changesOnly (s.setV x b) [.v] :=
  s.changesOnly_of_controlWrites (.inl (by decide)) (.inr rfl) (.inr rfl) (.inr rfl)

theorem State.changesOnly_draw_setV (x : Reg) (b : Byte) :
    s.changesOnly (s.draw.2.setV x b).advance [.v, .pc, .draws] := by
  intro f hf
  cases f with
  | v | pc | draws => simp at hf
  | mem => exact fun _ => rfl
  | _ => rfl

theorem State.storeBytes_of_accessOk {base : Nat} {bs : List Byte} (h : accessOk base bs.length = true) :
    s.storeBytes base bs = .ok { s with mem := Memory.writeBytes s.params.font s.mem base bs } :=
  State.storeBytes_eq_ok.2 ⟨h, rfl⟩

theorem State.changesOnly_writeBytes {base : Nat} {bs : List Byte} (h : accessOk base bs.length = true) :
    s.changesOnly { s with mem := Memory.writeBytes s.params.font s.mem base bs } [.mem] :=
  State.storeBytes_changesOnly_mem (s.storeBytes_of_accessOk h)

end

/-! ### Its own fault, or completed -/

/-- An instruction whose own check fails takes that fault (60 R220). -/
theorem exec_of_ownFault {i : Instr} {s : State} {r : Reason} (h : i.ownFault s r = true) :
    exec i s = .next (s.raise r) := by
  cases r with
  | romTooLarge | unknownOpcode _ => cases h
  | stackOverflow =>
    cases i with
    | call nnn => exact exec_call_of_full nnn (by simpa [Instr.ownFault] using h)
    | _ => cases h
  | stackUnderflow =>
    cases i with
    | ret => exact exec_ret_of_nil (List.isEmpty_iff.1 h)
    | _ => cases h
  | outOfBounds =>
    cases i with
    | draw x y n =>
      rcases exec_draw_cases s x y n with ⟨ha, -⟩ | ⟨-, he⟩
      · simp [Instr.ownFault, Instr.access, ha] at h
      · exact he
    | bcd x =>
      rcases exec_bcd_cases s x with ⟨ha, -⟩ | ⟨-, he⟩
      · simp [Instr.ownFault, Instr.access, ha] at h
      · exact he
    | regDump x =>
      rcases exec_regDump_cases s x with ⟨ha, -⟩ | ⟨-, he⟩
      · simp [Instr.ownFault, Instr.access, ha] at h
      · exact he
    | regLoad x =>
      rcases exec_regLoad_cases s x with ⟨ha, -⟩ | ⟨-, he⟩
      · simp [Instr.ownFault, Instr.access, ha] at h
      · exact he
    | _ => cases h

/-- An instruction none of whose checks fails writes only its own pieces (40 R105, R111). -/
theorem exec_changesOnly_writes {i : Instr} {s t : State} (hno : ∀ r, i.ownFault s r = false)
    (h : exec i s = .next t) : s.changesOnly t i.writes := by
  cases i with
  | ret =>
    rcases exec_ret_cases s with ⟨f, rest, -, he⟩ | ⟨hs, -⟩
    · cases he.symm.trans h
      exact s.changesOnly_of_controlWrites (.inl (by decide)) (.inl (by decide)) (.inl (by decide)) (.inl (by decide))
    · simpa [Instr.ownFault, hs] using hno .stackUnderflow
  | call nnn =>
    rcases exec_call_cases s nnn with ⟨-, he⟩ | ⟨hs, -⟩
    · cases he.symm.trans h
      exact s.changesOnly_of_controlWrites (fs := [.stk, .pc]) (.inr rfl) (.inr rfl) (.inl (by decide))
        (.inl (by decide))
    · exact absurd hs (by simpa [Instr.ownFault] using hno .stackOverflow)
  | draw x y n =>
    rcases exec_draw_cases s x y n with ⟨-, he⟩ | ⟨ha, -⟩
    · cases he.symm.trans h
      exact State.changesOnly_advance (s.changesOnly_blit x y _)
    · simpa [Instr.ownFault, Instr.access, ha] using hno .outOfBounds
  | bcd x =>
    rcases exec_bcd_cases s x with ⟨ha, he⟩ | ⟨ha, -⟩
    · cases he.symm.trans h
      exact State.changesOnly_advance (s.changesOnly_writeBytes ha)
    · simpa [Instr.ownFault, Instr.access, ha] using hno .outOfBounds
  | regDump x =>
    rcases exec_regDump_cases s x with ⟨ha, he⟩ | ⟨ha, -⟩
    · cases he.symm.trans h
      exact State.changesOnly_advance (s.changesOnly_writeBytes (by rwa [s.length_getVs]))
    · simpa [Instr.ownFault, Instr.access, ha] using hno .outOfBounds
  | regLoad x =>
    rcases exec_regLoad_cases s x with ⟨-, he⟩ | ⟨ha, -⟩
    · cases he.symm.trans h
      exact State.changesOnly_advance (s.changesOnly_setVs 0 _)
    · simpa [Instr.ownFault, Instr.access, ha] using hno .outOfBounds
  | jp _ | jpV0 _ => cases h; exact s.changesOnly_pc _
  | seImm _ _ | sneImm _ _ | seReg _ _ | sneReg _ _ | skipIfPressed _ | skipIfNotPressed _ =>
    cases h; exact s.changesOnly_skipIf _
  | ldImm _ _ | addImm _ _ | ldReg _ _ | or _ _ | and _ _ | xor _ _ | ldVxDt _ =>
    cases h; exact State.changesOnly_advance (s.changesOnly_setV _ _)
  | add _ _ | sub _ _ | shr _ _ | subn _ _ | shl _ _ => cases h; exact s.changesOnly_setResultFlag _ _ _
  | rand _ _ => cases h; exact s.changesOnly_draw_setV _ _
  | clear => cases h; exact State.changesOnly_advance (s.changesOnly_fb _)
  | ldI _ | addI _ | ldF _ => cases h; exact State.changesOnly_advance (s.changesOnly_i _)
  | ldDtVx _ => cases h; exact State.changesOnly_advance (s.changesOnly_dt _)
  | ldStVx _ => cases h; exact State.changesOnly_advance (s.changesOnly_st _)
  | waitKey _ | stop => cases h; exact s.changesOnly_status _

/-- What an instruction can do (40 R111): take a fault whose condition holds, or complete and write only its own
pieces. -/
theorem exec_cases {i : Instr} {s t : State} (h : exec i s = .next t) :
    (∃ r, i.ownFault s r = true ∧ t = s.raise r) ∨ s.changesOnly t i.writes := by
  by_cases hfault : ∃ r, i.ownFault s r = true
  · obtain ⟨r, hr⟩ := hfault
    exact .inl ⟨r, hr, Host.Outcome.next.inj (h.symm.trans (exec_of_ownFault hr))⟩
  · exact .inr (exec_changesOnly_writes (by simpa using hfault) h)

/-- Settles O51. -/
theorem instructionsArePrecise : Obligations.InstructionsArePrecise := by
  intro i s t h
  rcases exec_cases h with ⟨r, -, rfl⟩ | hframe
  · exact .inl ⟨r, rfl⟩
  · exact .inr hframe

/-! ### The status after an instruction -/

/-- The pieces WAIT_KEY and STOP write are the status alone, and no other instruction writes it (40 R105). -/
theorem Instr.status_mem_writes {i : Instr} : .status ∈ i.writes ↔ i = .stop ∨ ∃ x, i = .waitKey x := by
  cases i <;> simp [Instr.writes]

/-- From Running an instruction whose status is a fault took it by its own check (60 R220). -/
theorem exec_ownFault_of_faulted {i : Instr} {s t : State} {r : Reason} (hrun : s.status = .running)
    (h : exec i s = .next t) (ht : t.status = .faulted r) : i.ownFault s r = true := by
  rcases exec_cases h with ⟨r', hr, rfl⟩ | hframe
  · obtain rfl : r' = r := Status.faulted.inj ht
    exact hr
  · by_cases hw : .status ∈ i.writes
    · rcases Instr.status_mem_writes.1 hw with rfl | ⟨x, rfl⟩ <;> cases h <;> cases ht
    · cases (hrun.symm.trans (hframe .status hw).symm).trans ht

/-- Settles O52. -/
theorem instructionsRaiseTheirOwnFaults : Obligations.InstructionsRaiseTheirOwnFaults := fun _ _ _ hrun =>
  ⟨fun ⟨_, h, ht⟩ => exec_ownFault_of_faulted hrun h ht, fun hr => ⟨_, exec_of_ownFault hr, rfl⟩⟩

/-! ### The parameters, the schedule and memory after an instruction -/

section
variable {i : Instr} {s t : State}

/-- A piece that no rule names is kept by every instruction, a fault included, unless it is the status. -/
theorem exec_keeps_field {f : Field} (hf : f ∉ i.writes) (hstatus : f ≠ .status) (h : exec i s = .next t) :
    s.sameField t f := by
  rcases exec_cases h with ⟨r, -, rfl⟩ | hframe
  · exact s.changesOnly_status _ f (by simpa using hstatus)
  · exact hframe f hf

theorem exec_keeps_params (h : exec i s = .next t) : t.params = s.params :=
  exec_keeps_field (f := .params) (by cases i <;> simp [Instr.writes]) nofun h

theorem exec_keeps_inputs (h : exec i s = .next t) : t.inputs = s.inputs :=
  exec_keeps_field (f := .inputs) (by cases i <;> simp [Instr.writes]) nofun h

/-- BCD and REG_DUMP store their bytes at I, checked to fit, and no other instruction touches memory (20 R50, R54). -/
theorem exec_mem_cases (h : exec i s = .next t) :
    t.mem = s.mem ∨ ∃ bs : List Byte, t.mem = Memory.writeBytes s.params.font s.mem s.base bs ∧
      accessOk s.base bs.length = true ∧ i.access s = some (s.base, bs.length) ∧ ∃ x, i = .bcd x ∨ i = .regDump x := by
  cases i with
  | bcd x =>
    rcases exec_bcd_cases s x with ⟨ha, he⟩ | ⟨-, he⟩ <;> cases he.symm.trans h
    · exact .inr ⟨bcdDigits (s.getV x), rfl, ha, rfl, x, .inl rfl⟩
    · exact .inl rfl
  | regDump x =>
    rcases exec_regDump_cases s x with ⟨ha, he⟩ | ⟨-, he⟩ <;> cases he.symm.trans h
    · exact .inr ⟨s.getVs x, rfl, by rwa [s.length_getVs], by rw [s.length_getVs]; rfl, x, .inr rfl⟩
    · exact .inl rfl
  | ret => rcases exec_ret_cases s with ⟨_, _, -, he⟩ | ⟨-, he⟩ <;> cases he.symm.trans h <;> exact .inl rfl
  | call nnn => rcases exec_call_cases s nnn with ⟨-, he⟩ | ⟨-, he⟩ <;> cases he.symm.trans h <;> exact .inl rfl
  | draw x y n => rcases exec_draw_cases s x y n with ⟨-, he⟩ | ⟨-, he⟩ <;> cases he.symm.trans h <;> exact .inl rfl
  | regLoad x =>
    rcases exec_regLoad_cases s x with ⟨-, he⟩ | ⟨-, he⟩ <;> cases he.symm.trans h
    · exact .inl (s.setVs_mem 0 _)
    · exact .inl rfl
  | _ => cases h; exact .inl rfl

end

/-- Settles O54: only a store changes memory, inside its bytes, and they were checked to lie below 4096. -/
theorem onlyStoresChangeMemory : Obligations.OnlyStoresChangeMemory := by
  intro i s t a h hne
  have hparams := exec_keeps_params h
  rcases exec_mem_cases h with hmem | ⟨bs, hmem, hok, hacc, hstore⟩
  · exact absurd (State.readByte_eq hmem hparams a) hne
  · by_cases hin : s.base ≤ a ∧ a < s.base + bs.length
    · have hroom := (accessOk_iff _ _).1 hok
      simp only [Config.memSize] at hroom
      exact ⟨s.base, bs.length, hacc, hin.1, hin.2, by omega, hstore⟩
    · rw [State.readByte, hmem, hparams, Memory.read_writeBytes, if_neg hin] at hne
      exact absurd rfl hne

end Sys2Proof.Machine
end

section
/-! PROOFS. 10_state.md R27, R28, R31, R37, 20_memory.md R50: the pieces of state an instruction does not reach. An
instruction and an edit of such pieces commute, proved once for all of them. -/

namespace Sys2Proof.Machine

/-! ### Edits -/

/-- A change of the pieces of state that few instructions reach, each given as a function of its old value. -/
structure Edit where
  mem : Memory → Memory := id
  st : Byte → Byte := id
  stk : List Frame → List Frame := id
  fb : FrameBuffer → FrameBuffer := id
  key : Vector Bool 16 → Vector Bool 16 := id

/-- The state with the edit made. -/
def Edit.apply (e : Edit) (s : State) : State :=
  { s with mem := e.mem s.mem, st := e.st s.st, stk := e.stk s.stk, fb := e.fb s.fb, key := e.key s.key }

/-- The edit leaves alone every piece that the instruction reads or writes; for a piece the edit does not name, which
is `id` by default, there is nothing to prove. -/
structure Edit.Unreached (e : Edit) (i : Instr) (s : State) : Prop where
  mem : i.access s ≠ none → e.mem = id := by exact fun _ => rfl
  st : (∃ x, i = .ldStVx x) → e.st = id := by exact fun _ => rfl
  stk : (i = .ret ∨ ∃ nnn, i = .call nnn) → e.stk = id := by exact fun _ => rfl
  fb : (i = .clear ∨ ∃ x y n, i = .draw x y n) → e.fb = id := by exact fun _ => rfl
  key : (∃ x, i = .skipIfPressed x ∨ i = .skipIfNotPressed x) → e.key = id := by exact fun _ => rfl

/-! ### Register writes, loads and stores under an edit -/

theorem Edit.apply_setVs (e : Edit) (s : State) (k : Nat) (bs : List Byte) :
    (e.apply s).setVs k bs = e.apply (s.setVs k bs) := by
  induction bs generalizing s k with
  | nil => rfl
  | cons b bs ih => exact ih (s.setV (BitVec.ofNat 4 k) b) (k + 1)

section
variable {e : Edit} {s t : State} (hmem : e.mem = id) {base : Nat}
include hmem

theorem Edit.finish_loadBytes {n : Nat} {f f' : List Byte → State} (hf : ∀ bs, f' bs = e.apply (f bs))
    (h : s.finish ((s.loadBytes base n).map f) = .next t) :
    (e.apply s).finish (((e.apply s).loadBytes base n).map f') = .next (e.apply t) := by
  have hread : (e.apply s).readByte = s.readByte := funext (State.readByte_eq (congrFun hmem s.mem) rfl)
  obtain rfl : f' = e.apply ∘ f := funext hf
  have hload : (e.apply s).loadBytes base n = s.loadBytes base n := by simp only [State.loadBytes, hread]
  rw [hload]
  cases hl : s.loadBytes base n <;> rw [hl] at h <;> cases h <;> rfl

theorem Edit.finish_storeBytes {bs : List Byte}
    (h : s.finish ((s.storeBytes base bs).map State.advance) = .next t) :
    (e.apply s).finish (((e.apply s).storeBytes base bs).map State.advance) = .next (e.apply t) := by
  obtain ⟨mem, st, stk, fb, key⟩ := e
  cases hmem
  unfold State.storeBytes at h ⊢
  split at h <;> cases h
  · rw [if_pos ‹_›]; rfl
  · rw [if_neg ‹_›]; rfl

end

/-! ### The instructions -/

/-- An instruction and an edit of what it does not reach commute. -/
theorem exec_apply {e : Edit} {i : Instr} {s t : State} (hun : e.Unreached i s) (h : exec i s = .next t) :
    exec i (e.apply s) = .next (e.apply t) := by
  obtain ⟨hmem, hst, hstk, hfb, hkey⟩ := hun
  obtain ⟨mem, st, stk, fb, key⟩ := e
  cases i with
  | draw x y n =>
    cases hfb (.inr ⟨x, y, n, rfl⟩)
    exact Edit.finish_loadBytes (hmem nofun) (fun _ => rfl) h
  | regLoad x =>
    exact Edit.finish_loadBytes (f := fun bs => (s.setVs 0 bs).advance) (hmem nofun)
      (fun bs => congrArg State.advance (Edit.apply_setVs _ s 0 bs)) h
  | bcd x | regDump x => exact Edit.finish_storeBytes (hmem nofun) h
  | ret =>
    cases hstk (.inl rfl)
    rcases exec_ret_cases s with ⟨f, rest, hs, he⟩ | ⟨hs, he⟩ <;> cases he.symm.trans h
    · exact exec_ret_of_cons hs
    · exact exec_ret_of_nil hs
  | call nnn =>
    cases hstk (.inr ⟨nnn, rfl⟩)
    rcases exec_call_cases s nnn with ⟨hs, he⟩ | ⟨hs, he⟩ <;> cases he.symm.trans h
    · exact exec_call_of_room nnn hs
    · exact exec_call_of_full nnn hs
  | clear =>
    cases hfb (.inl rfl)
    cases h
    rfl
  | ldStVx x =>
    cases hst ⟨x, rfl⟩
    cases h
    rfl
  | skipIfPressed x | skipIfNotPressed x =>
    cases hkey ⟨x, by simp⟩
    cases h
    rfl
  | _ => cases h; rfl

/-! ### The obligations -/

/-- Settles O55: the edit of the latch. -/
theorem onlyKeySkipsReadTheLatch : Obligations.OnlyKeySkipsReadTheLatch := by
  intro i s t k hskp hsknp h
  have hun : Edit.Unreached { key := fun _ => k } i s :=
    { key := fun ⟨x, hi⟩ => (hi.elim (hskp x) (hsknp x)).elim }
  exact exec_apply hun h

/-- Settles O56: the edits of memory, of FB and of STK. -/
theorem onlyTheirInstructionsReachMemoryFramebufferAndStack :
    Obligations.OnlyTheirInstructionsReachMemoryFramebufferAndStack := by
  intro i s t h
  refine ⟨fun m hacc => ?mem, fun fb hclear hdraw => ?fb, fun stk hret hcall => ?stk⟩
  case mem =>
    have hun : Edit.Unreached { mem := fun _ => m } i s :=
      { mem := fun hne => (hne hacc).elim }
    exact exec_apply hun h
  case fb =>
    have hun : Edit.Unreached { fb := fun _ => fb } i s :=
      { fb := fun hi => (hi.elim hclear fun ⟨x, y, n, hi⟩ => hdraw x y n hi).elim }
    exact exec_apply hun h
  case stk =>
    have hun : Edit.Unreached { stk := fun _ => stk } i s :=
      { stk := fun hi => (hi.elim hret fun ⟨nnn, hi⟩ => hcall nnn hi).elim }
    exact exec_apply hun h

/-- Settles O57: the edit of ST; LD ST writes ST whatever it was. -/
theorem noInstructionReadsTheSoundTimer : Obligations.NoInstructionReadsTheSoundTimer := by
  refine ⟨fun i s t b hld h => ?_, fun _ _ _ => rfl⟩
  have hun : Edit.Unreached { st := fun _ => b } i s :=
    { st := fun ⟨x, hi⟩ => (hld x hi).elim }
  exact exec_apply hun h

end Sys2Proof.Machine
end

section
/-! PROOFS. 10_state.md R39, 70_reset_and_hazards.md R260 to R264: a load, a reset and the construction of a core. -/

namespace Sys2Proof.Machine

/-! ### Load -/

/-- Settles O23, by the two outcomes of a load. -/
theorem loadCopiesTheRomOrReportsIt : Obligations.LoadCopiesTheRomOrReportsIt := by
  intro s b
  rcases s.load_cases b with ⟨hfits, hload⟩ | ⟨hlong, hload⟩ <;> rw [hload]
  · have hroom : accessOk 0x200 b.length = true := (accessOk_iff _ _).2 (.inr (by simp only [Config.memSize]; omega))
    have hstore := s.storeBytes_of_accessOk hroom
    refine ⟨fun _ => ⟨rfl, s.changesOnly_writeBytes hroom, fun k hk => ?copied,
      State.storeBytes_keepsBytesOutside hstore⟩, fun hlong => absurd hfits (by omega)⟩
    case copied => rw [State.readByte_storeBytes_getElem hstore hk, List.getElem?_eq_getElem hk, Option.getD_some]
  · exact ⟨fun hfits => absurd hfits (by omega), fun _ => ⟨rfl, rfl, s.changesOnly_status _⟩⟩

/-! ### Reset -/

/-- Settles O22: the model's reset state is a cleared one with the default parameters. -/
theorem resetStateHoldsTheStatedValues : Obligations.ResetStateHoldsTheStatedValues :=
  ⟨State.reset.getV_clear, rfl, rfl, rfl, rfl, rfl, FrameBuffer.cell_blank, State.reset.getKey_clear, rfl,
    fun a _ => Memory.background_eq a⟩

section
variable (s : State) {rom : List Byte}

theorem State.resetWith_of_fits (h : rom.length ≤ 3584) :
    s.resetWith rom = { s.clear with mem := Memory.writeBytes s.params.font [] 0x200 rom } := by
  rcases s.clear.load_cases rom with ⟨-, hload⟩ | ⟨hlong, -⟩
  · exact congrArg Prod.snd hload
  · omega

theorem State.resetWith_of_too_large (h : 3584 < rom.length) : s.resetWith rom = s.clear.raise .romTooLarge := by
  rcases s.clear.load_cases rom with ⟨hfits, -⟩ | ⟨-, hload⟩
  · omega
  · exact congrArg Prod.snd hload

/-- A reset reports a ROM that is too large in the status, and else leaves the executor running (70 R263). -/
theorem State.resetWith_status (rom : List Byte) :
    (s.resetWith rom).status = if 3584 < rom.length then .faulted .romTooLarge else .running := by
  split
  · rw [s.resetWith_of_too_large ‹_›, State.raise_status]
  · exact s.resetWith_status_of_fits (by omega)

/-- The memory a reset leaves: the font, the ROM if it fits, and zero elsewhere (10 R39). -/
theorem State.readByte_resetWith (rom : List Byte) (a : Nat) :
    (s.resetWith rom).readByte a =
      if 0x050 ≤ a ∧ a < 0x0A0 then s.params.font[a - 0x050]?.getD 0
      else if 0x200 ≤ a ∧ rom.length ≤ 3584 then rom[a - 0x200]?.getD 0 else 0 := by
  by_cases hfits : rom.length ≤ 3584
  · have hread := s.clear.readByte_writeBytes 0x200 rom a
    rw [State.readByte_clear, Memory.background_eq] at hread
    rw [s.resetWith_of_fits hfits]
    refine hread.trans ?_
    by_cases hrom : 0x200 ≤ a ∧ a < 0x200 + rom.length
    · rw [if_pos hrom, if_neg (by omega), if_pos ⟨hrom.1, hfits⟩]
    · rw [if_neg hrom]
      refine if_congr Iff.rfl rfl ?_
      split
      · rw [List.getElem?_eq_none (by omega), Option.getD_none]
      · rfl
  · rw [s.resetWith_of_too_large (by omega), State.readByte_raise, State.readByte_clear, Memory.background_eq]
    simp [hfits]

/-- What a reset keeps is the parameters and the draw count (70 R261). -/
theorem State.changesOnly_resetWith (rest : List Event) (rom : List Byte) :
    s.changesOnly (State.resetWith { s with inputs := rest } rom)
      [.mem, .v, .i, .pc, .dt, .st, .stk, .fb, .key, .status, .inputs] := by
  obtain ⟨mem, status, -, hreset⟩ := State.resetWith_eq { s with inputs := rest } rom
  rw [hreset]
  intro f hf
  cases f with
  | params | draws => rfl
  | _ => simp at hf

end

/-- Settles O19. -/
theorem resetLeavesTheStatedValues : Obligations.ResetLeavesTheStatedValues := by
  intro s rom rest hsched
  obtain ⟨mem, status, -, hreset⟩ := State.resetWith_eq { s with inputs := rest } rom
  have hstatus := State.resetWith_status { s with inputs := rest } rom
  have hread := State.readByte_resetWith { s with inputs := rest } rom
  have hframe := s.changesOnly_resetWith rest rom
  rw [hreset] at hstatus hread hframe
  refine ⟨_, (step_cons hsched).trans (congrArg Host.Outcome.next hreset), State.getV_clear s, rfl, rfl, rfl, rfl,
    rfl, FrameBuffer.cell_blank, State.getKey_clear s, hframe, rfl, hstatus, ?result, fun a _ => hread a⟩
  case result =>
    rw [State.result, hstatus]
    by_cases hlong : 3584 < rom.length
    · simp only [if_pos hlong]
    · simp only [if_neg hlong]

/-! ### Refusals -/

/-- Settles O24. -/
theorem loadOutsideResetIsRefused : Obligations.LoadOutsideResetIsRefused := by
  refine ⟨fun s b rest hsched => step_cons hsched, fun p w rom hw hlegal => ?_⟩
  simp [State.construct, hw, hlegal]

/-! ### Construction -/

/-- A core that is built has an admitted halt word, and is in the state its first reset leaves (70 R260, 30 R87). -/
theorem State.construct_eq_next {p : Config.Params} {rom : List Byte} {t : State}
    (h : State.construct p rom = .next t) :
    p.wf = true ∧ t = State.resetWith { State.reset with params := p } rom := by
  unfold State.construct at h
  unfold Config.Params.wf
  cases hw : p.haltWord with
  | none =>
    simp only [hw] at h
    cases h
    exact ⟨rfl, rfl⟩
  | some w =>
    simp only [hw] at h
    split at h <;> cases h
    exact ⟨‹_›, rfl⟩

end Sys2Proof.Machine
end

section
/-! PROOFS. 20_memory.md R64, 40_executor.md R107, R109, 45_timers_input.md R210 to R212, 60_exceptions.md R240: what
each transaction does, and that a step performs exactly one. -/

namespace Sys2Proof.Machine

/-! ### What every transaction keeps -/

section
variable {s t : State}

theorem State.stepCall_keeps_params_inputs (h : s.stepCall = .next t) :
    t.params = s.params ∧ t.inputs = s.inputs := by
  rcases s.stepCall_cases with ⟨-, hcall⟩ | ⟨-, hcall⟩ | ⟨-, hcall⟩
  · rcases s.runOne_cases with ⟨r, -, hone⟩ | ⟨i, -, hone⟩
    · cases (hcall.trans hone).symm.trans h
      exact ⟨rfl, rfl⟩
    · have hexec := (hcall.trans hone).symm.trans h
      exact ⟨exec_keeps_params hexec, exec_keeps_inputs hexec⟩
  · cases hcall.symm.trans h
  · cases hcall.symm.trans h
    exact ⟨rfl, rfl⟩

/-- No transaction writes the parameters or schedules another one (00 R8, log entry 1). -/
theorem State.perform_keeps_params_inputs {e : Event} (h : s.perform e = .next t) :
    t.params = s.params ∧ t.inputs = s.inputs := by
  rcases State.perform_cases h with
    ⟨-, hcall⟩ | ⟨-, rfl⟩ | ⟨k, p, -, -, rfl⟩ | ⟨-, rfl⟩ | ⟨rom, -, rfl⟩
  · exact State.stepCall_keeps_params_inputs hcall
  · rcases s.tick_cases with ⟨-, htick⟩ | ⟨-, htick⟩ <;> rw [htick] <;> exact ⟨rfl, rfl⟩
  · rcases s.setKeyPressed_cases (BitVec.ofNat 4 k) p with ⟨x, -, -, hpress⟩ | ⟨-, hlatch⟩
    · rw [hpress]; exact ⟨rfl, rfl⟩
    · rw [hlatch]; exact ⟨rfl, rfl⟩
  · exact ⟨rfl, rfl⟩
  · obtain ⟨mem, status, -, hreset⟩ := s.resetWith_eq rom
    rw [hreset]; exact ⟨rfl, rfl⟩

end

/-- Settles O58. -/
theorem noStepChangesTheParameters : Obligations.NoStepChangesTheParameters := by
  intro s t h
  rcases step_cases s with ⟨-, hstep⟩ | ⟨e, rest, -, hstep⟩
  · exact (State.stepCall_keeps_params_inputs (s := { s with inputs := [] }) (hstep.symm.trans h)).1
  · exact (State.perform_keeps_params_inputs (s := { s with inputs := rest }) (hstep.symm.trans h)).1

/-! ### One transaction a step -/

section
variable {s : State} {x : Reg} (hwait : s.status = .waitingKey x)
include hwait

theorem State.schedule_of_waiting : s.schedule = s.inputs.dropWhile (· == .step) := by
  simp only [State.schedule, hwait]

/-- In a key wait the calls of `step()` at the head of the inputs are passed over (40 R109). -/
theorem State.schedule_replicate_step {n : Nat} {e : Event} {rest : List Event} (he : e ≠ .step)
    (h : s.inputs = List.replicate n .step ++ e :: rest) : s.schedule = e :: rest := by
  have hcalls : ∀ a ∈ List.replicate n Event.step, (a == .step) = true := by simp +contextual
  rw [State.schedule_of_waiting hwait, h, List.dropWhile_append_of_pos hcalls, List.dropWhile_cons_of_neg (by simpa)]

/-- What is scheduled in a key wait stands in the inputs after calls of `step()` alone. -/
theorem State.inputs_eq_of_schedule {e : Event} {rest : List Event} (h : s.schedule = e :: rest) :
    ∃ n, s.inputs = List.replicate n .step ++ e :: rest := by
  have hsplit := s.inputs.takeWhile_append_dropWhile (p := (· == .step))
  rw [← State.schedule_of_waiting hwait, h] at hsplit
  have hcalls : ∀ a ∈ s.inputs.takeWhile (· == .step), a = .step := fun a ha => by
    simpa using List.mem_takeWhile_imp ha
  exact ⟨_, by rw [← List.eq_replicate_of_mem hcalls, hsplit]⟩

/-- In a key wait with nothing scheduled the step does not return (40 R109). -/
theorem step_of_waiting_of_schedule_nil (h : s.schedule = []) : step s = .fault .keyHold := by
  rcases step_cases s with ⟨-, hstep⟩ | ⟨e, rest, hsched, -⟩
  · rw [hstep]
    simp only [State.stepCall, hwait]
  · cases h.symm.trans hsched

/-- A step in a key wait that answers a next state performs an event that is no call of `step()`. -/
theorem step_next_of_waiting {t : State} (h : step s = .next t) :
    ∃ e rest, s.schedule = e :: rest ∧ e ≠ .step ∧ State.perform { s with inputs := rest } e = .next t := by
  rcases step_cases s with ⟨hsched, -⟩ | ⟨e, rest, hsched, hstep⟩
  · cases (step_of_waiting_of_schedule_nil hwait hsched).symm.trans h
  · exact ⟨e, rest, hsched, State.schedule_head_ne_step hwait hsched, hstep.symm.trans h⟩

end

/-- Outside a key wait a step uses up the head of the inputs. -/
theorem step_inputs_of_not_waiting {s t : State} (hnot : ∀ x, s.status ≠ .waitingKey x) (h : step s = .next t) :
    t.inputs = s.inputs.tail := by
  rcases step_cases s with ⟨hsched, hstep⟩ | ⟨e, rest, hsched, hstep⟩ <;>
    rw [State.schedule_eq_inputs hnot] at hsched <;> rw [hsched]
  · exact (State.stepCall_keeps_params_inputs (hstep.symm.trans h)).2
  · exact (State.perform_keeps_params_inputs (hstep.symm.trans h)).2

/-- Settles O26. -/
theorem stepConsumesOneTransaction : Obligations.StepConsumesOneTransaction := by
  intro s
  refine ⟨step_nil, fun e rest hnot hinputs => step_cons ((State.schedule_eq_inputs hnot).trans hinputs),
    fun x n e rest hwait he hinputs => step_cons (State.schedule_replicate_step hwait he hinputs),
    fun t h => ⟨fun hnot => step_inputs_of_not_waiting hnot h, fun x hwait => ?_⟩⟩
  obtain ⟨e, rest, hsched, he, hperform⟩ := step_next_of_waiting hwait h
  obtain ⟨n, hinputs⟩ := State.inputs_eq_of_schedule hwait hsched
  have hrest : t.inputs = rest := (State.perform_keeps_params_inputs hperform).2
  exact ⟨n, e, hrest ▸ hinputs, he⟩

/-! ### Final states -/

theorem State.changesOnly_inputs (s : State) (rest : List Event) : s.changesOnly { s with inputs := rest } [.inputs] :=
  s.changesOnly_of_eventWrites (.inr rfl) (.inr rfl) (.inr rfl) (.inr rfl) (.inr rfl) (.inl (by decide))

theorem State.changesOnly_mono {s t : State} {fs gs : List Field} (hsub : fs ⊆ gs) (h : s.changesOnly t fs) :
    s.changesOnly t gs := fun f hf => h f fun hfs => hf (hsub hfs)

/-- Settles O14, from what a step can do in a final status. -/
theorem finalStatesAreFrozenUntilReset : Obligations.FinalStatesAreFrozenUntilReset := by
  intro s hfinal
  refine ⟨fun hinputs => (step_nil hinputs).trans (State.stepCall_of_final hfinal), fun hs => ?halted,
    fun r hs => ?faulted, fun t h hreset => ?kept⟩
  case halted | faulted => simp only [State.result, hs]
  case kept =>
    obtain ⟨rest, rfl | ⟨k, p, rfl⟩⟩ := step_cases_of_final hfinal hreset h
    · exact State.changesOnly_mono (by decide) (s.changesOnly_inputs rest)
    · exact s.changesOnly_setKey_inputs rest k p

/-! ### Ticks -/

theorem State.changesOnly_countDown_inputs (s : State) (rest : List Event) :
    s.changesOnly (State.countDown { s with inputs := rest }) [.dt, .st, .inputs] :=
  s.changesOnly_of_eventWrites (.inl (by decide)) (.inl (by decide)) (.inr rfl) (.inr rfl) (.inr rfl)
    (.inl (by decide))

/-- Settles O18. -/
theorem tickCountsBothTimersDown : Obligations.TickCountsBothTimersDown := by
  intro s rest hsched
  have hstep : step s = .next (State.tick { s with inputs := rest }) := step_cons hsched
  rcases State.tick_cases { s with inputs := rest } with ⟨hfinal, htick⟩ | ⟨hnot, htick⟩ <;> rw [htick] at hstep
  · exact ⟨_, hstep, rfl, fun _ => s.changesOnly_inputs rest, fun hnot => absurd hfinal hnot⟩
  · exact ⟨_, hstep, rfl, fun hfinal => absurd hfinal hnot, fun _ => ⟨decrement_toNat _, decrement_toNat _,
      s.changesOnly_countDown_inputs rest⟩⟩

/-! ### Key events -/

theorem step_keyEvent {s : State} {code : Nat} {p : Bool} {rest : List Event}
    (hsched : s.schedule = .setKeyPressed code p :: rest) (hcode : code ≤ 15) :
    step s = .next (State.setKeyPressed { s with inputs := rest } (BitVec.ofNat 4 code) p) := by
  rw [step_cons hsched, State.perform, if_pos hcode]

/-- Settles O17. -/
theorem otherKeyEventsWriteOnlyTheLatch : Obligations.OtherKeyEventsWriteOnlyTheLatch := by
  intro s code p rest hsched
  refine ⟨fun hcode => ?refused, fun hcode hlatch => ?latch⟩
  case refused => rw [step_cons hsched, State.perform, if_neg (by omega)]
  case latch =>
    have hstep := step_keyEvent hsched hcode
    rcases State.setKeyPressed_cases { s with inputs := rest } (BitVec.ofNat 4 code) p with
      ⟨x, hwait, rfl, -⟩ | ⟨-, hset⟩
    · rcases hlatch with hp | hnot
      · cases hp
      · exact absurd hwait (hnot x)
    · rw [hset] at hstep
      refine ⟨_, hstep, ?bit, fun j hj => ?others, rfl, s.changesOnly_setKey_inputs rest _ p⟩
      case bit => rw [State.getKey_setKey, if_pos rfl]
      case others => rw [State.getKey_setKey, if_neg hj]; rfl

theorem State.getKey_resolveWait (s : State) (x k j : BitVec 4) :
    (s.resolveWait x k).getKey j = if j = k then true else s.getKey j := s.getKey_setKey k j true

theorem State.getV_resolveWait (s : State) (x k r : BitVec 4) :
    (s.resolveWait x k).getV r = if r = x then k.setWidth 8 else s.getV r := (s.setKey k true).getV_setV x r _

theorem State.changesOnly_resolveWait_inputs (s : State) (rest : List Event) (x k : BitVec 4) :
    s.changesOnly (State.resolveWait { s with inputs := rest } x k) [.key, .v, .pc, .status, .inputs] := by
  intro f hf
  cases f with
  | key | v | pc | status | inputs => simp at hf
  | mem => exact fun _ => rfl
  | _ => rfl

/-- Settles O16. -/
theorem keyPressResolvesTheWait : Obligations.KeyPressResolvesTheWait := by
  intro s x k rest hwait hsched
  have hstep := step_keyEvent hsched (Nat.le_of_lt_succ k.isLt)
  rw [BitVec.ofNat_toNat, BitVec.setWidth_eq] at hstep
  rcases State.setKeyPressed_cases { s with inputs := rest } k true with ⟨x', hwait', -, hpress⟩ | ⟨hnot, -⟩
  · obtain rfl : x = x' := Status.waitingKey.inj (hwait.symm.trans hwait')
    rw [hpress] at hstep
    refine ⟨_, hstep, ?bit, fun j hj => ?others, ?code, fun r hr => ?regs, rfl, rfl, rfl, rfl,
      s.changesOnly_resolveWait_inputs rest x k⟩
    case bit => rw [State.getKey_resolveWait, if_pos rfl]
    case others => rw [State.getKey_resolveWait, if_neg hj]; rfl
    case code => rw [State.getV_resolveWait, if_pos rfl, BitVec.toNat_setWidth_of_le (by decide)]
    case regs => rw [State.getV_resolveWait, if_neg (by simpa using hr)]; rfl
  · rcases hnot with hp | hnot
    · cases hp
    · exact absurd hwait (hnot x)

/-! ### The hold of a key wait -/

/-- Settles O15, by the event the step performs. -/
theorem keyWaitHoldsUntilPressOrReset : Obligations.KeyWaitHoldsUntilPressOrReset := by
  intro s x hwait
  refine ⟨fun hcalls => ?stuck, fun t h => ?held⟩
  case stuck =>
    apply step_of_waiting_of_schedule_nil hwait
    rw [State.schedule_of_waiting hwait, List.dropWhile_eq_nil_iff]
    exact fun e he => beq_iff_eq.2 (hcalls e he)
  case held =>
    obtain ⟨e, rest, hsched, he, hperform⟩ := step_next_of_waiting hwait h
    rcases State.perform_cases hperform with
      ⟨rfl, -⟩ | ⟨rfl, rfl⟩ | ⟨k, p, rfl, -, rfl⟩ | ⟨rfl, rfl⟩ | ⟨rom, rfl, -⟩
    · exact absurd rfl he
    · refine .inr (.inr ?_)
      rcases State.tick_cases { s with inputs := rest } with ⟨-, htick⟩ | ⟨-, htick⟩ <;> rw [htick]
      · exact State.changesOnly_mono (by decide) (s.changesOnly_inputs rest)
      · exact State.changesOnly_mono (by decide) (s.changesOnly_countDown_inputs rest)
    · cases p with
      | true => exact .inl ⟨k, rest, hsched⟩
      | false =>
        refine .inr (.inr ?_)
        rcases State.setKeyPressed_cases { s with inputs := rest } (BitVec.ofNat 4 k) false with
          ⟨_, -, hp, -⟩ | ⟨-, hset⟩
        · cases hp
        · rw [hset]
          exact State.changesOnly_mono (by decide) (s.changesOnly_setKey_inputs rest _ false)
    · exact .inr (.inr (State.changesOnly_mono (by decide) (s.changesOnly_inputs rest)))
    · exact .inr (.inl ⟨rom, rest, hsched⟩)

end Sys2Proof.Machine
end

section
/-! PROOFS. The invariant of the machine: 10_state.md R28, R30, 20_memory.md R50, 30_encoding.md R87, 40_executor.md
R105, 60_exceptions.md R220, R224. It holds after every reset, and every transaction keeps it. -/

namespace Sys2Proof.Machine

/-! ### What accounts for a stop -/

section
variable {s t : State}

theorem State.stopExplained_of_running (h : s.status = .running) : s.stopExplained = true := by
  simp only [State.stopExplained, h]

/-- The latch accounts for no stop. -/
theorem State.stopExplained_setKey (s : State) (k : BitVec 4) (p : Bool) :
    (s.setKey k p).stopExplained = s.stopExplained := rfl

/-- The timers account for no wait. -/
theorem State.stopExplained_countDown (hnot : ¬ s.final) : s.countDown.stopExplained = s.stopExplained := by
  cases hs : s.status with
  | running | waitingKey x =>
    have hfetch : s.countDown.fetchDecode = s.fetchDecode := State.fetchDecode_congr rfl rfl rfl
    simp only [State.stopExplained, State.countDown_status, hs, hfetch]
  | halted => exact absurd (.inl hs) hnot
  | faulted r => exact absurd (.inr ⟨r, hs⟩) hnot

/-- Fetch and decode never raise the fault of a load. -/
theorem State.fetchDecode_ne_romTooLarge (s : State) : s.fetchDecode ≠ .error .romTooLarge := by
  rcases s.fetchDecode_cases with ⟨-, hf⟩ | ⟨-, w, -, ⟨i, -, hf⟩ | ⟨-, hf⟩⟩ <;> simp [hf]

theorem State.stopExplained_raise_of_fetchDecode_error {r : Reason} (h : s.fetchDecode = .error r) :
    (s.raise r).stopExplained = true := by
  have hfetch : (s.raise r).fetchDecode = .error r := (State.fetchDecode_congr rfl rfl rfl).trans h
  cases r with
  | romTooLarge => exact absurd h s.fetchDecode_ne_romTooLarge
  | _ => simp only [State.stopExplained, State.raise_status, hfetch, beq_self_eq_true]

theorem State.stopExplained_raise_of_ownFault {i : Instr} {r : Reason} (h : s.fetchDecode = .ok i)
    (hr : i.ownFault s r = true) : (s.raise r).stopExplained = true := by
  have hfetch : (s.raise r).fetchDecode = .ok i := (State.fetchDecode_congr rfl rfl rfl).trans h
  cases r with
  | romTooLarge => cases hr
  | _ => simp only [State.stopExplained, State.raise_status, hfetch]; exact hr

theorem State.fetchDecode_of_stopExplained_waiting {x : Reg} (hs : s.status = .waitingKey x)
    (h : s.stopExplained = true) : s.fetchDecode = .ok (.waitKey x) := by
  simp only [State.stopExplained, hs] at h
  split at h
  · rw [‹s.fetchDecode = _›, beq_iff_eq.1 h]
  · cases h

theorem State.pc_le_of_fetchDecode_ok {i : Instr} (h : s.fetchDecode = .ok i) : s.pc.toNat ≤ 4094 := by
  rcases s.fetchDecode_cases with ⟨-, hf⟩ | ⟨hpc, -⟩
  · cases hf.symm.trans h
  · exact hpc

end

/-! ### Reset -/

theorem State.freshButKeys_clear_raise (s : State) (r : Reason) : (s.clear.raise r).freshButKeys = true := by
  simp [State.freshButKeys]

/-- A reset leaves the invariant, whatever the state before it (70 R260, R263). -/
theorem State.inv_resetWith {s : State} (hparams : s.params.wf = true) (rom : List Byte) : (s.resetWith rom).Inv := by
  have hpc : (0x200 : Word).toNat ≤ 0x10FE := by decide
  by_cases hfits : rom.length ≤ 3584
  · rw [s.resetWith_of_fits hfits]
    have hwf : Memory.wf s.params.font (Memory.writeBytes s.params.font [] 0x200 rom) = true :=
      Memory.wf_writeBytes (.inr (by simp only [Config.memSize]; omega)) rfl
    exact ⟨hwf, Nat.zero_le _, hparams, hpc, nofun, rfl⟩
  · rw [s.resetWith_of_too_large (by omega)]
    exact ⟨rfl, Nat.zero_le _, hparams, hpc, nofun, s.freshButKeys_clear_raise _⟩

/-- Settles O59: the model's reset state is a reset with the empty ROM, and a core is built by a reset. -/
theorem invariantHoldsAtReset : Obligations.InvariantHoldsAtReset := by
  refine ⟨State.inv_resetWith (s := State.reset) rfl [], fun p rom t h => ?_⟩
  obtain ⟨hwf, rfl⟩ := State.construct_eq_next h
  exact State.inv_resetWith (s := { State.reset with params := p }) hwf rom

/-! ### What an instruction does to the stack and to PC -/

section
variable {i : Instr} {s t : State}

/-- The frames after an instruction are the old ones, but for the frame a CALL pushes below the bound, which returns
to PC + 2 (10 R28, 41 R123). -/
theorem exec_stk_bounds (hpc : s.pc.toNat ≤ 4094) (hlen : s.stk.length ≤ 16) (hret : ∀ f ∈ s.stk, f.ret.toNat ≤ 4096)
    (h : exec i s = .next t) : t.stk.length ≤ 16 ∧ ∀ f ∈ t.stk, f.ret.toNat ≤ 4096 := by
  rcases framesOnTheStackAreNeverChanged i s t h with hs | ⟨-, hs⟩ | ⟨nnn, rfl, -⟩
  · rw [hs]
    exact ⟨hlen, hret⟩
  · rw [hs, List.length_tail]
    exact ⟨by omega, fun f hf => hret f (List.mem_of_mem_tail hf)⟩
  · rcases exec_call_cases s nnn with ⟨hroom, he⟩ | ⟨-, he⟩ <;> cases he.symm.trans h
    · have hnext : (s.pc + 2).toNat ≤ 4096 := by bv_omega
      exact ⟨hroom, List.forall_mem_cons.2 ⟨hnext, hret⟩⟩
    · exact ⟨hlen, hret⟩

/-- Where an instruction can leave PC (40 R105): at itself, after a fault, a wait or a halt; one or two instructions
on; at a target of 12 bits; at such a target plus a byte; or at a return address. -/
theorem exec_pc_cases (h : exec i s = .next t) :
    t.pc = s.pc ∨ t.pc = s.pc + 2 ∨ t.pc = s.pc + 4 ∨ (∃ nnn, t.pc = zextAddr nnn) ∨
      (∃ nnn b, t.pc = zextAddr nnn + zextByte b) ∨ ∃ f ∈ s.stk, t.pc = f.ret := by
  cases i with
  | ret =>
    rcases exec_ret_cases s with ⟨f, rest, hs, he⟩ | ⟨-, he⟩ <;> cases he.symm.trans h
    exacts [.inr (.inr (.inr (.inr (.inr ⟨f, by simp [hs], rfl⟩)))), .inl rfl]
  | call nnn =>
    rcases exec_call_cases s nnn with ⟨-, he⟩ | ⟨-, he⟩ <;> cases he.symm.trans h
    exacts [.inr (.inr (.inr (.inl ⟨nnn, rfl⟩))), .inl rfl]
  | draw x y n =>
    rcases exec_draw_cases s x y n with ⟨-, he⟩ | ⟨-, he⟩ <;> cases he.symm.trans h
    exacts [.inr (.inl rfl), .inl rfl]
  | bcd x =>
    rcases exec_bcd_cases s x with ⟨-, he⟩ | ⟨-, he⟩ <;> cases he.symm.trans h
    exacts [.inr (.inl rfl), .inl rfl]
  | regDump x =>
    rcases exec_regDump_cases s x with ⟨-, he⟩ | ⟨-, he⟩ <;> cases he.symm.trans h
    exacts [.inr (.inl rfl), .inl rfl]
  | regLoad x =>
    rcases exec_regLoad_cases s x with ⟨-, he⟩ | ⟨-, he⟩ <;> cases he.symm.trans h
    exacts [.inr (.inl (by rw [State.advance_pc, State.setVs_pc])), .inl rfl]
  | jp nnn => cases h; exact .inr (.inr (.inr (.inl ⟨nnn, rfl⟩)))
  | jpV0 nnn => cases h; exact .inr (.inr (.inr (.inr (.inl ⟨nnn, _, rfl⟩))))
  | seImm _ _ | sneImm _ _ | seReg _ _ | sneReg _ _ | skipIfPressed _ | skipIfNotPressed _ =>
    cases h
    rw [State.skipIf_pc]
    split
    · exact .inr (.inr (.inl rfl))
    · exact .inr (.inl rfl)
  | waitKey _ | stop => cases h; exact .inl rfl
  | _ => cases h; exact .inr (.inl rfl)

/-- The greatest PC is that of a JP V0 to 0xFFF + 0xFF (40 R105). -/
theorem exec_pc_le (hpc : s.pc.toNat ≤ 4094) (hret : ∀ f ∈ s.stk, f.ret.toNat ≤ 4096) (h : exec i s = .next t) :
    t.pc.toNat ≤ 0x10FE := by
  rcases exec_pc_cases h with ht | ht | ht | ⟨nnn, ht⟩ | ⟨nnn, b, ht⟩ | ⟨f, hf, ht⟩ <;> rw [ht]
  · omega
  · bv_omega
  · bv_omega
  · have := nnn.isLt
    rw [zextAddr_toNat]
    omega
  · have := nnn.isLt
    have := b.isLt
    rw [zextAddr_add_zextByte_toNat]
    omega
  · have := hret f hf
    omega

/-- An instruction keeps memory in canonical form: it leaves it, or stores inside it (20 R50, R54). -/
theorem exec_keeps_wf (hwf : Memory.wf s.params.font s.mem = true) (h : exec i s = .next t) :
    Memory.wf t.params.font t.mem = true := by
  rw [exec_keeps_params h]
  rcases exec_mem_cases h with hmem | ⟨bs, hmem, hok, -, -⟩ <;> rw [hmem]
  · exact hwf
  · exact Memory.wf_writeBytes (((accessOk_iff _ _).1 hok).imp_left List.length_eq_zero_iff.1) hwf

/-- The instruction at PC accounts for the status it leaves (60 R220, R224). -/
theorem exec_stopExplained (hrun : s.status = .running) (hfetch : s.fetchDecode = .ok i) (h : exec i s = .next t) :
    t.stopExplained = true := by
  rcases exec_cases h with ⟨r, hr, rfl⟩ | hframe
  · exact State.stopExplained_raise_of_ownFault hfetch hr
  by_cases hw : .status ∈ i.writes
  · have hpark (status : Status) : State.fetchDecode { s with status := status } = .ok i :=
      (State.fetchDecode_congr rfl rfl rfl).trans hfetch
    rcases Instr.status_mem_writes.1 hw with rfl | ⟨x, rfl⟩ <;> cases h <;>
      simp only [State.stopExplained, hpark, beq_self_eq_true]
  · exact State.stopExplained_of_running ((hframe .status hw).trans hrun)

end

/-! ### Every transaction keeps the invariant -/

section
variable {s t : State}

theorem State.inv_runOne (hinv : s.Inv) (hrun : s.status = .running) (h : s.runOne = .next t) : t.Inv := by
  obtain ⟨hwf, hlen, hparams, hpc, hret, -⟩ := hinv
  rcases s.runOne_cases with ⟨r, hfetch, hone⟩ | ⟨i, hfetch, hone⟩
  · cases hone.symm.trans h
    exact ⟨hwf, hlen, hparams, hpc, hret, State.stopExplained_raise_of_fetchDecode_error hfetch⟩
  · have hexec := hone.symm.trans h
    have hpc := State.pc_le_of_fetchDecode_ok hfetch
    obtain ⟨hlen', hret'⟩ := exec_stk_bounds hpc hlen hret hexec
    exact ⟨exec_keeps_wf hwf hexec, hlen', exec_keeps_params hexec ▸ hparams, exec_pc_le hpc hret hexec, hret',
      exec_stopExplained hrun hfetch hexec⟩

theorem State.inv_stepCall (hinv : s.Inv) (h : s.stepCall = .next t) : t.Inv := by
  rcases s.stepCall_cases with ⟨hrun, hcall⟩ | ⟨-, hcall⟩ | ⟨-, hcall⟩
  · exact State.inv_runOne hinv hrun (hcall.symm.trans h)
  · cases hcall.symm.trans h
  · cases hcall.symm.trans h
    exact hinv

theorem State.inv_tick (hinv : s.Inv) : s.tick.Inv := by
  rcases s.tick_cases with ⟨-, htick⟩ | ⟨hnot, htick⟩ <;> rw [htick]
  · exact hinv
  · obtain ⟨hwf, hlen, hparams, hpc, hret, hstop⟩ := hinv
    exact ⟨hwf, hlen, hparams, hpc, hret, (State.stopExplained_countDown hnot).trans hstop⟩

/-- The press that ends a wait leaves PC after the WAIT_KEY it was at (45 R210). -/
theorem State.inv_setKeyPressed (hinv : s.Inv) (k : BitVec 4) (p : Bool) : (s.setKeyPressed k p).Inv := by
  obtain ⟨hwf, hlen, hparams, hpc, hret, hstop⟩ := hinv
  rcases s.setKeyPressed_cases k p with ⟨x, hwait, -, hpress⟩ | ⟨-, hlatch⟩
  · have hat := State.pc_le_of_fetchDecode_ok (State.fetchDecode_of_stopExplained_waiting hwait hstop)
    have hnext : (s.pc + 2).toNat ≤ 0x10FE := by bv_omega
    rw [hpress]
    exact ⟨hwf, hlen, hparams, hnext, hret, State.stopExplained_of_running rfl⟩
  · rw [hlatch]
    exact ⟨hwf, hlen, hparams, hpc, hret, (s.stopExplained_setKey k p).trans hstop⟩

theorem State.inv_perform {e : Event} (hinv : s.Inv) (h : s.perform e = .next t) : t.Inv := by
  rcases State.perform_cases h with
    ⟨-, hcall⟩ | ⟨-, rfl⟩ | ⟨k, p, -, -, rfl⟩ | ⟨-, rfl⟩ | ⟨rom, -, rfl⟩
  · exact State.inv_stepCall hinv hcall
  · exact State.inv_tick hinv
  · exact State.inv_setKeyPressed hinv _ p
  · exact hinv
  · obtain ⟨-, -, hparams, -⟩ := hinv
    exact State.inv_resetWith hparams rom

end

/-- Settles O60: the invariant does not speak of the schedule, and each transaction keeps it. -/
theorem everyStepKeepsTheInvariant : Obligations.EveryStepKeepsTheInvariant := by
  intro s t hinv h
  rcases step_cases s with ⟨-, hstep⟩ | ⟨e, rest, -, hstep⟩
  · exact State.inv_stepCall (s := { s with inputs := [] }) hinv (hstep.symm.trans h)
  · exact State.inv_perform (s := { s with inputs := rest }) hinv (hstep.symm.trans h)

end Sys2Proof.Machine
end

section
/-! PROOFS. 30_encoding.md R85: the words that match no fixed row are the illegal ones. -/

namespace Sys2Proof

/-! ### A word without a row, class by class -/

section
variable {w : Word}

/-- A word that matches no fixed row is in the table of illegal words; goal `h_(k+1)` is class `k`, and `h_17` no
class. -/
theorem illegalWord_of_decodeRow_eq_none (h : decodeRow w = none) : illegalWord w = true := by
  simp only [illegalWord, toNat_div_4096, toNat_mod_16, toNat_mod_256]
  unfold decodeRow at h
  split at h
  case h_1 hc =>
    rw [hc]
    unfold decodeClass0 at h
    split at h
    case h_3 hclear hret =>
      have hword (nnn : Addr12) (hne : fieldNNN w ≠ nnn) : w ≠ 0x0#4 ++ nnn := by
        rintro rfl
        exact hne (fieldNNN_nnn _ _)
      exact Bool.and_eq_true_iff.2 ⟨bne_iff_ne.2 (hword 0x0E0 hclear), bne_iff_ne.2 (hword 0x0EE hret)⟩
    all_goals cases h
  case h_6 hc | h_10 hc =>
    split at h
    next => cases h
    next hn =>
      rw [hc]
      exact bne_iff_ne.2 fun hzero => hn (BitVec.eq_of_toNat_eq hzero)
  case h_9 hc =>
    rw [hc]
    unfold decodeClass8 at h
    split at h
    case h_10 =>
      change [8, 9, 0xA, 0xB, 0xC, 0xD, 0xF].contains (fieldN w).toNat = true
      clear hc h
      generalize fieldN w = n at *
      revert n
      decide
    all_goals cases h
  case h_15 hc =>
    rw [hc]
    unfold decodeClassE at h
    split at h
    case h_3 hp hnp =>
      simp_all [← BitVec.toNat_inj]
    all_goals cases h
  case h_16 hc =>
    rw [hc]
    unfold decodeClassF at h
    split at h
    case h_10 =>
      simp_all [← BitVec.toNat_inj]
    all_goals cases h
  case h_17 =>
    exfalso
    clear h
    generalize fieldClass w = c at *
    revert c
    decide
  all_goals cases h

end

/-- Settles O5. -/
theorem unknownWordsAreTheIllegalOnes : Obligations.UnknownWordsAreTheIllegalOnes := by
  intro h w
  rcases decode_cases h w with ⟨i, hrow, hd⟩ | ⟨-, hhalt, hd⟩ | ⟨hrow, hhalt, hd⟩ <;> rw [hd]
  · refine ⟨nofun, fun ⟨hillegal, _⟩ => ?_⟩
    rw [decodeRow_of_illegalWord hillegal] at hrow
    cases hrow
  · exact ⟨nofun, fun ⟨_, hne⟩ => absurd hhalt hne⟩
  · exact ⟨fun _ => ⟨illegalWord_of_decodeRow_eq_none hrow, hhalt⟩, fun _ => rfl⟩

end Sys2Proof
end

section
/-! PROOFS. 40_executor.md R101, R102, R104, 20_memory.md R52: the calls of `step()` that run an instruction or fault
before one, and the word the host places. -/

namespace Sys2Proof.Machine

/-! ### Fetch and decode, outcome by outcome -/

section
variable {s : State}

theorem State.fetch_of_le (h : s.pc.toNat ≤ 4094) :
    s.fetch = .ok (wordOfBytes (s.readByte s.pc.toNat) (s.readByte (s.pc.toNat + 1))) := by
  rcases s.fetch_cases with ⟨-, hf⟩ | ⟨hpc, -⟩
  · exact hf
  · omega

theorem State.fetchDecode_of_end (h : 4095 ≤ s.pc.toNat) : s.fetchDecode = .error .outOfBounds := by
  rcases s.fetchDecode_cases with ⟨-, hf⟩ | ⟨hpc, -⟩
  · exact hf
  · omega

theorem State.fetchDecode_of_decode {i : Instr} (hpc : s.pc.toNat ≤ 4094)
    (hd : decode s.params.haltWord (wordOfBytes (s.readByte s.pc.toNat) (s.readByte (s.pc.toNat + 1))) = .ok i) :
    s.fetchDecode = .ok i := by
  simp only [State.fetchDecode, State.fetch_of_le hpc, hd]

theorem State.fetchDecode_of_unknown {w : Word} (hpc : s.pc.toNat ≤ 4094)
    (hw : w = wordOfBytes (s.readByte s.pc.toNat) (s.readByte (s.pc.toNat + 1)))
    (hd : decode s.params.haltWord w = .error (.unknown w)) : s.fetchDecode = .error (.unknownOpcode w) := by
  simp only [State.fetchDecode, State.fetch_of_le hpc, ← hw, hd]

theorem State.stepCall_of_running (h : s.status = .running) : s.stepCall = s.runOne := by
  simp only [State.stepCall, h]

/-- A step whose fetch or decoding faults changes the status alone, and the fault is final (40 R107, 60 R224). -/
theorem step_of_fetchDecode_error {r : Reason} (hready : s.ready) (h : s.fetchDecode = .error r) :
    step s = .next (s.raise r) ∧ step (s.raise r) = .next (s.raise r) :=
  ⟨(step_of_ready hready).trans (State.runOne_of_fetchDecode_error h),
    (step_nil (s := s.raise r) hready.2).trans (State.stepCall_of_final (.inr ⟨r, rfl⟩))⟩

end

/-! ### The obligations -/

/-- Settles O10: outside a wait a scheduled `step()` is at the head, and it meets the fetch of the state that keeps the
rest. -/
theorem scheduledStepRunsTheDecodedInstruction : Obligations.ScheduledStepRunsTheDecodedInstruction := by
  intro s i rest hrun hinputs hpc _ hd
  have hsched : s.schedule = .step :: rest := (State.schedule_eq_inputs (by simp [hrun])).trans hinputs
  have hfetch : State.fetchDecode { s with inputs := rest } = .ok i := State.fetchDecode_of_decode hpc hd
  have hcall : State.stepCall { s with inputs := rest } = State.runOne { s with inputs := rest } :=
    State.stepCall_of_running hrun
  exact (step_cons hsched).trans (hcall.trans (State.runOne_of_fetchDecode_ok hfetch))

/-- Settles O11. -/
theorem stepAtEndOfMemoryFaults : Obligations.StepAtEndOfMemoryFaults := fun _ hready hpc =>
  step_of_fetchDecode_error hready (State.fetchDecode_of_end hpc)

/-- Settles O12: the illegal words but the halt word are the ones the decoder does not know. -/
theorem stepOfUnknownWordFaults : Obligations.StepOfUnknownWordFaults := by
  intro s w hready hpc hw hillegal hhalt
  have hd := (unknownWordsAreTheIllegalOnes s.params.haltWord w).2 ⟨hillegal, hhalt⟩
  obtain ⟨hstep, hfinal⟩ := step_of_fetchDecode_error hready (State.fetchDecode_of_unknown hpc hw hd)
  exact ⟨_, hstep, rfl, s.changesOnly_status _, rfl, hfinal⟩

/-! ### Placing a word -/

theorem State.placeWord_pc (s : State) (w : Word) :
    (s.placeWord w).pc = if s.pc.toNat ≤ 4094 then s.pc else 0x200 := by
  have hok : accessOk s.pc.toNat 2 = true ↔ s.pc.toNat ≤ 4094 := (accessOk_succ_iff _ 1).trans (by omega)
  simp only [State.placeWord, hok]

theorem State.readByte_placeWord (s : State) (w : Word) (a : Nat) :
    (s.placeWord w).readByte a =
      if (s.placeWord w).pc.toNat ≤ a ∧ a < (s.placeWord w).pc.toNat + 2 then
        [wordHi w, wordLo w][a - (s.placeWord w).pc.toNat]?.getD 0 else s.readByte a :=
  s.readByte_writeBytes _ _ a

theorem State.fetch_placeWord (s : State) (w : Word) : (s.placeWord w).fetch = .ok w := by
  have hpc : (s.placeWord w).pc.toNat ≤ 4094 := by
    rw [State.placeWord_pc]
    split
    · assumption
    · decide
  rw [State.fetch_of_le hpc, State.readByte_placeWord, State.readByte_placeWord, if_pos (by omega), if_pos (by omega)]
  simp

theorem State.changesOnly_placeWord (s : State) (w : Word) :
    s.changesOnly (s.placeWord w) [.mem, .pc, .status, .inputs] := by
  intro f hf
  cases f with
  | mem | pc | status | inputs => simp at hf
  | v => exact fun _ => rfl
  | _ => rfl

/-- Settles O45. -/
theorem placedWordIsFetched : Obligations.PlacedWordIsFetched := fun s nbits w =>
  ⟨s.fetch_placeWord (tableWord nbits w), ⟨rfl, rfl⟩, s.changesOnly_placeWord _, s.placeWord_pc _⟩

end Sys2Proof.Machine
end

section
/-! PROOFS. 42_alu.md R140 to R145, R160, 45_timers_input.md R202 to R205, 40_executor.md R108: the instructions that
write one register, one timer or the status. -/

namespace Sys2Proof.Machine

/-! ### One register -/

section
variable (s : State) (x : Reg) (b : Byte)

theorem State.getV_setV_advance : (s.setV x b).advance.getV x = b := by
  rw [State.getV_advance, State.getV_setV, if_pos rfl]

theorem State.keepsRegsBut_setV : s.keepsRegsBut (s.setV x b).advance [x] := by
  intro r hr
  rw [State.getV_advance, State.getV_setV, if_neg (by simpa using hr)]

/-- What the loads and the logic instructions leave unchanged. -/
theorem State.setV_advance_frame :
    s.keepsRegsBut (s.setV x b).advance [x] ∧ (s.setV x b).advance.pc = s.pc + 2 ∧
      s.changesOnly (s.setV x b).advance [.v, .pc] :=
  ⟨s.keepsRegsBut_setV x b, rfl, State.changesOnly_advance (s.changesOnly_setV x b)⟩

end

/-! ### The obligations -/

/-- Settles O33: each writes V[x] once. -/
theorem loadsAndLogicWriteOnlyTheirRegister : Obligations.LoadsAndLogicWriteOnlyTheirRegister := by
  intro s x y nn
  refine ⟨⟨_, rfl, s.getV_setV_advance x nn, s.setV_advance_frame x _⟩, ⟨_, rfl, ?sum, s.setV_advance_frame x _⟩,
    ⟨_, rfl, s.getV_setV_advance x _, s.setV_advance_frame x _⟩, ⟨_, rfl, fun b => ?or, s.setV_advance_frame x _⟩,
    ⟨_, rfl, fun b => ?and, s.setV_advance_frame x _⟩, ⟨_, rfl, fun b => ?xor, s.setV_advance_frame x _⟩,
    ⟨_, rfl, s.getV_setV_advance x _, s.setV_advance_frame x _⟩⟩
  case sum => rw [State.getV_setV_advance, BitVec.toNat_add]
  case or => rw [State.getV_setV_advance, BitVec.getLsbD_or]
  case and => rw [State.getV_setV_advance, BitVec.getLsbD_and]
  case xor => rw [State.getV_setV_advance, BitVec.getLsbD_xor]

/-- Settles O37: the draw counts first and leaves the registers. -/
theorem randStoresAMaskedDraw : Obligations.RandStoresAMaskedDraw := by
  intro s x nn
  refine ⟨_, rfl, fun b => ?masked, s.draw.2.keepsRegsBut_setV x _, rfl, rfl, s.changesOnly_draw_setV x _⟩
  case masked => rw [State.getV_setV_advance, State.draw_byte, BitVec.getLsbD_and]

/-- Settles O49. -/
theorem timersWaitAndStopWriteTheirOneField : Obligations.TimersWaitAndStopWriteTheirOneField := fun s _ =>
  ⟨⟨_, rfl, rfl, rfl, State.changesOnly_advance (s.changesOnly_dt _)⟩,
    ⟨_, rfl, rfl, rfl, State.changesOnly_advance (s.changesOnly_st _)⟩,
    ⟨_, rfl, rfl, rfl, s.changesOnly_status _⟩, ⟨_, rfl, rfl, rfl, s.changesOnly_status _⟩⟩

end Sys2Proof.Machine
end
